-- ==== Sys2Proof/Word.lean ====
section
/-! DEFINITION. The two word types of the spec (00_scope.md R8): 32-bit port words and 8-bit channel or character values.
A single bit of a bit sequence (R9) is a `Bool`, `true` being 1. -/

namespace Sys2Proof

/-- A 32-bit word of the host port (20_memory.md R31). -/
abbrev Word := BitVec 32

/-- An 8-bit value: a colour channel or a character code (00_scope.md R7). -/
abbrev Byte := BitVec 8

end Sys2Proof
end

