-- ==== Sys2Proof/Syntax.lean ====
section
/-! DEFINITION. The seven commands of spec/opcode_table.json (30_encoding.md R50). A command has no operand field:
every operand and result is a fixed register, buffer or the grid (R49). -/

namespace Sys2Proof

inductive Instr where
  | fenc      -- Bit Framer encode, R62
  | fdec      -- Bit Framer decode, R66
  | embed     -- Channel Embedder encode, R68
  | extract   -- Channel Embedder decode, R70
  | hide      -- frame, then embed, R72
  | reveal    -- extract, then deframe, R74
  | capcheck  -- required against available pixels, R76
  deriving DecidableEq, Repr

end Sys2Proof
end

