-- ==== Sys2Proof/Decode.lean ====
section
/-! DEFINITION. Command words (30_encoding.md R49 to R52): a decoder total on all 32-bit words that rejects by name,
and the encoder. -/

namespace Sys2Proof

/-- The three kinds of illegal word R51 names. -/
inductive IllegalWord where
  /-- `Z` (bits 31:8) is not zero. -/
  | nonzeroZ
  /-- `Z` is zero and `OP` is 0x00. -/
  | zeroOp
  /-- `Z` is zero and `OP` is in 0x08 to 0xFF. -/
  | unassignedOp
  deriving DecidableEq, Repr

/-- Field `OP`, bits 7:0 (R49). -/
def fieldOp (w : Word) : BitVec 8 := w.extractLsb' 0 8

/-- Field `Z`, bits 31:8 (R49). -/
def fieldZ (w : Word) : BitVec 24 := w.extractLsb' 8 24

/-- The command that opcode `op` selects (R50), if any. -/
def opcodeInstr (op : BitVec 8) : Option Instr :=
  if op = 0x01#8 then some .fenc
  else if op = 0x02#8 then some .fdec
  else if op = 0x03#8 then some .embed
  else if op = 0x04#8 then some .extract
  else if op = 0x05#8 then some .hide
  else if op = 0x06#8 then some .reveal
  else if op = 0x07#8 then some .capcheck
  else none

/-- Decoding of a command word (R50 to R53): no mode bit changes it (R52). -/
def decode (w : Word) : Except IllegalWord Instr :=
  if fieldZ w ≠ 0 then .error .nonzeroZ
  else
    match opcodeInstr (fieldOp w) with
    | some i => .ok i
    | none => if fieldOp w = 0 then .error .zeroOp else .error .unassignedOp

/-- The opcode of a command, from the table of R50. -/
def opcode : Instr → BitVec 8
  | .fenc => 0x01#8
  | .fdec => 0x02#8
  | .embed => 0x03#8
  | .extract => 0x04#8
  | .hide => 0x05#8
  | .reveal => 0x06#8
  | .capcheck => 0x07#8

/-- The full word of a command: `Z` zero above `OP` (R49). -/
def encode (i : Instr) : Word := 0#24 ++ opcode i

/-- The command word whose bits are `w` (bit 0 least significant), of `nbits` bits, the bits above them zero.
The host port moves whole words and has no byte order (R41), so no layout step is needed; a number wider than one
word is no command word. -/
def tableWord (nbits w : Nat) : Option Word :=
  if w % 2 ^ nbits < 2 ^ 32 then some (BitVec.ofNat 32 (w % 2 ^ nbits)) else none

/-- What `decode` reads from a row of spec/opcode_table.json. -/
def decodeTableWord (nbits w : Nat) : Option Instr :=
  match tableWord nbits w with
  | none => none
  | some word =>
    match decode word with
    | .ok i => some i
    | .error _ => none

end Sys2Proof
end

