-- ==== Sys2Proof/Config.lean ====
section
/-! DEFINITION. What an instance of the block fixes (00_scope.md R7), and the free values of the buffers after reset
(70_reset_and_hazards.md R102). -/

namespace Sys2Proof

/-- The two parameters the spec leaves OPEN (00_scope.md R7; 92_eei_decisions.md D5, D6). They are data in the
state, so that a statement about every state quantifies over them (log 1, DESIGN CHOICE). -/
structure Config where
  /-- `N_BYTES`, as `CAPS[23:0]` reports it (10_state.md R26); legal values are 1 to 2^24 - 1. -/
  nBytes : BitVec 24
  /-- `HAS_ALPHA`, as `CAPS[24]` reports it. -/
  hasAlpha : Bool
  deriving DecidableEq, Repr

/-- Free value (R102, I8; log 2): what `MSG[i]` holds after the `d`-th reset. No body: any value. -/
opaque Config.msgDraw : Nat → Nat → BitVec 32

/-- Free value (R102, I8; log 2): what `BIT[j]` holds after the `d`-th reset. No body: any value. -/
opaque Config.bitDraw : Nat → Nat → Bool

end Sys2Proof
end

