-- ==== Sys2Proof/Machine/State.lean ====
section
/-! DEFINITION. The state: the block's registers and buffers (10_state.md), the attached grid (R29), and the host that
drives the port (R28, R54, R112). Plain data throughout. -/

namespace Sys2Proof.Machine

/-- The error codes of `STATUS.ERR` that occur (60_exceptions.md R82); codes 5 to 15 are never produced (I14). -/
inductive ErrCode where
  | none
  | encodingError
  | capacityExceeded
  | lengthError
  | illegalCommand
  deriving DecidableEq, Repr

/-- The fields of `STATUS` (10_state.md R17). Its reserved bits read 0 and ignore writes (R35), so they are no state. -/
structure Status where
  err : ErrCode
  term : Bool
  trunc : Bool
  fits : Bool
  sticky : Bool
  deriving DecidableEq, Repr

/-- The pixel grid the grid store has attached (R29). `w` and `h` are `W` and `H`, each in [0, 65535] (R7). The
channels are bytes of `cells`, at the addresses of `pixKey` (Machine/Memory.lean). -/
structure Grid where
  w : BitVec 16
  h : BitVec 16
  cells : List Host.Cell
  deriving DecidableEq, Repr

/-- What the host can do (30_encoding.md R54; 70_reset_and_hazards.md R112). A label is a position in the host's
program (log 6). -/
inductive HostOp where
  /-- `RD addr`: `MemRead`, and the host notes the value. -/
  | rd (addr : BitVec 32)
  /-- `WR addr, v`: `MemWrite`; a command is a write to `CMD`. -/
  | wr (addr v : BitVec 32)
  /-- `BRSET addr, bit, label`: read `addr`, go on at `label` if bit `bit` of the value is 1. -/
  | brset (addr : BitVec 32) (bit : Fin 32) (label : Nat)
  /-- `BRCLR addr, bit, label`: the same for 0. -/
  | brclr (addr : BitVec 32) (bit : Fin 32) (label : Nat)
  /-- `JMP label`: no port access. -/
  | jmp (label : Nat)
  /-- `HALT`: the host's program is over. -/
  | halt
  /-- Attach or replace the grid, between commands (R47). -/
  | attach (w h : BitVec 16) (cells : List Host.Cell)
  /-- Have the grid store keep a lossless copy of the attached grid (R47, R112; log 10). -/
  | copyGrid
  /-- Attach the values of the `k`-th kept copy, the copy itself staying as it is; where there is none nothing is attached
  (R87; log 10). -/
  | attachCopy (k : Nat)
  /-- Assert reset (R100). -/
  | reset
  deriving DecidableEq, Repr

/-- The whole system. -/
structure State where
  /-- Parameters of the instance (R7); no step changes them. -/
  cfg : Config
  /-- `CTRL.STRICT` (R15). -/
  strict : Bool
  /-- `STATUS` (R17). -/
  status : Status
  /-- `ERR_INFO` (R18). -/
  errInfo : BitVec 32
  /-- `MSG_LEN` (R19). -/
  msgLen : BitVec 32
  /-- `BIT_LEN` (R20). -/
  bitLen : BitVec 32
  /-- `REQ_PIX` (R25). -/
  reqPix : BitVec 32
  /-- `MSG[0 .. N_BYTES-1]` (R21). -/
  msg : List (BitVec 32)
  /-- `BIT[0 .. 8*N_BYTES-1]` (R22). -/
  bit : List Bool
  /-- The attached grid: state of the grid store (R29). -/
  grid : Grid
  /-- The copies the grid store keeps (R112; log 10). -/
  copies : List Grid
  /-- The host's program (R28, R54; log 5). -/
  prog : List HostOp
  /-- The host's position in its program (log 5). -/
  hpc : Nat
  /-- The words the host has read, oldest first (R54; log 5). -/
  notes : List (BitVec 32)
  /-- How many times the buffers have been drawn (R102; log 2). -/
  draws : Nat
  deriving DecidableEq, Repr

/-- The machine stops with a fault: never. No error stops the block (60_exceptions.md R91), and no behaviour of it is
stuck (93_implementation_defined.md), so no fault has a name (log 12). -/
inductive Fault
  deriving DecidableEq, Repr

/-- A step without a meaning. -/
inductive Refusal where
  /-- An instruction that has no meaning yet: raised by `exec`'s refused arms only; safe. No arm uses it. -/
  | notModelled (mnemonic : String)
  deriving DecidableEq, Repr

/-- `STATUS` after reset (R101). -/
def Status.reset : Status :=
  { err := .none, term := false, trunc := false, fits := false, sticky := false }

/-- `MSG[]` after the `d`-th reset: a free value in each entry (R102; log 2). -/
def drawMsg (c : Config) (d : Nat) : List (BitVec 32) :=
  (List.range c.nBytes.toNat).map (Config.msgDraw d)

/-- `BIT[]` after the `d`-th reset: a free value in each entry (R102; log 2). -/
def drawBit (c : Config) (d : Nat) : List Bool :=
  (List.range (8 * c.nBytes.toNat)).map (Config.bitDraw d)

/-- The grid of no pixels, which may be attached (D7). -/
def Grid.empty : Grid := { w := 0, h := 0, cells := [] }

/-- A block with parameters `c` and attached grid `g`, right after reset (R101, R102, R103), the host's program not
yet loaded (log 5). DESIGN CHOICE (log 10): the grid store keeps no copies yet; the spec does not say which it keeps. -/
def State.fresh (c : Config) (g : Grid) : State :=
  { cfg := c, strict := false, status := Status.reset, errInfo := 0, msgLen := 0, bitLen := 0, reqPix := 0,
    msg := drawMsg c 0, bit := drawBit c 0, grid := g, copies := [], prog := [], hpc := 0, notes := [], draws := 1 }

/-- The parameters of `State.reset`'s instance: those of the test vectors' common setup (95_test_vectors.md; log 1). -/
def Config.sample : Config := { nBytes := 4, hasAlpha := true }

/-- The machine right after reset (R101, R102), the instance and its grid chosen as logs 1 and 3 say. -/
def State.reset : State := State.fresh Config.sample Grid.empty

end Sys2Proof.Machine
end

