-- ==== Sys2Proof/Machine/Flags.lean ====
section
/-! DEFINITION. The status word (10_state.md R17) and the flags a command computes. -/

namespace Sys2Proof.Machine

/-- The code of an error (60_exceptions.md R82). -/
def errCode : ErrCode → BitVec 4
  | .none => 0
  | .encodingError => 1
  | .capacityExceeded => 2
  | .lengthError => 3
  | .illegalCommand => 4

/-- `STATUS` as the host reads it (R17): `STICKY` 16, `FITS` 10, `TRUNC` 9, `TERM` 8, `ERR` 3:0, the rest 0. -/
def statusWord (f : Status) : Word :=
  0#15 ++ BitVec.ofBool f.sticky ++ 0#5 ++ BitVec.ofBool f.fits ++ BitVec.ofBool f.trunc ++ BitVec.ofBool f.term ++
    0#4 ++ errCode f.err

/-- A bit as a host word: `zext_32` (R22). -/
def bitWord (b : Bool) : Word := (BitVec.ofBool b).setWidth 32

/-- `TRUNC` of `EMBED` and `HIDE` (R68, R72): the bit count exceeds the capacity. -/
def truncFlag (len cap : Nat) : Bool := decide (len > cap)

/-- `FITS` of `CAPCHECK` (R76). -/
def fitsFlag (req cap : Nat) : Bool := decide (req ≤ cap)

end Sys2Proof.Machine
end

