-- ==== Sys2Proof/Machine/Framing.lean ====
section
/-! DEFINITION. The Bit Framer's pure functions (40_framer.md section 1) and the raster mapping (41_embedder.md R67). -/

namespace Sys2Proof.Machine

/-- `byteToBits(v)`: most significant bit first (R55). -/
def byteToBits (v : Byte) : List Bool :=
  [v.getLsbD 7, v.getLsbD 6, v.getLsbD 5, v.getLsbD 4, v.getLsbD 3, v.getLsbD 2, v.getLsbD 1, v.getLsbD 0]

/-- The number a list of bits spells, first bit most significant. -/
def bitsToNat (g : List Bool) : Nat := g.foldl (fun acc b => 2 * acc + b.toNat) 0

/-- `bitsToByte(g)` for a group of 8 bits (R56). -/
def bitsToByte (g : List Bool) : Byte := BitVec.ofNat 8 (bitsToNat g)

/-- The 8-bit zero terminator. -/
def terminator : List Bool := List.replicate 8 false

/-- `frame(m)` (R57): nothing for the empty message (C1), else the characters' bits and the terminator. -/
def frame (m : List Byte) : List Bool :=
  match m with
  | [] => []
  | c :: rest => (c :: rest).flatMap byteToBits ++ terminator

/-- The loop of `deframe` over the first `groups` groups of `s` (R59). -/
def deframeGroups (groups : Nat) (s : List Bool) : List Byte × Bool :=
  match groups with
  | 0 => ([], false)
  | g + 1 =>
    let v := bitsToByte (s.take 8)
    if v = 0 then ([], true)
    else
      let rest := deframeGroups g (s.drop 8)
      (v :: rest.1, rest.2)

/-- `deframe(s)` (R59): whole groups only (R60), stopping at the first zero group. -/
def deframe (s : List Bool) : List Byte × Bool := deframeGroups (s.length / 8) s

/-- `raster(k)` on a grid of height `h` (R67): column-major, `x` outer and `y` inner (C8). -/
def raster (h k : Nat) : Nat × Nat := (k / h, k % h)

/-- `index(x, y)` on a grid of height `h` (R67). -/
def rasterIndex (h x y : Nat) : Nat := x * h + y

end Sys2Proof.Machine
end

