-- ==== Sys2Proof/WellFormed.lean ====
section
/-! DEFINITION. The checks on plain data: an instruction, the instance's parameters, a cell list in canonical form.
A command has no operand (R49), so no command can be ill formed; the checks with content are the other two. -/

namespace Sys2Proof

/-- Every command is well formed: it has no field that could hold an illegal value (30_encoding.md R49). -/
abbrev Instr.WellFormed (i : Instr) : Prop :=
  match i with
  | .fenc | .fdec | .embed | .extract | .hide | .reveal | .capcheck => True

/-- `N_BYTES` lies in [1, 2^24 - 1] (00_scope.md R7); the upper bound is the field's width. -/
abbrev Config.WellFormed (c : Config) : Prop := c.nBytes ≠ 0

/-- What a memory address that a cell list does not name reads as (log 4, DESIGN CHOICE). -/
def unlistedByte : Byte := 0

/-- The one canonical form of byte memory: addresses strictly rising, no cell equal to an unlisted address. -/
abbrev cellsCanonical (cells : List Host.Cell) : Prop :=
  cells.Pairwise (fun p q => p.1 < q.1) ∧ ∀ p ∈ cells, p.2 ≠ unlistedByte

end Sys2Proof
end

