-- ==== Sys2Proof/Machine/Memory.lean ====
section
/-! DEFINITION. The byte memory of the grid store: reading and writing one cell in canonical form, where a channel of a
pixel lies, and building a grid from a list of cells. -/

namespace Sys2Proof.Machine

/-- The byte at address `a`. -/
def readCell (cells : List Host.Cell) (a : Nat) : Byte :=
  match cells with
  | [] => unlistedByte
  | (k, v) :: rest => if k = a then v else readCell rest a

/-- Write `v` at address `a`, keeping the canonical form: the value of an unlisted address is not listed. -/
def writeCell (cells : List Host.Cell) (a : Nat) (v : Byte) : List Host.Cell :=
  match cells with
  | [] => if v = unlistedByte then [] else [(a, v)]
  | (k, u) :: rest =>
    if a < k then (if v = unlistedByte then (k, u) :: rest else (a, v) :: (k, u) :: rest)
    else if a = k then (if v = unlistedByte then rest else (a, v) :: rest)
    else (k, u) :: writeCell rest a v

/-- The channels of a pixel (R29). -/
inductive Channel where
  | red
  | green
  | blue
  | alpha
  deriving DecidableEq, Repr

/-- A channel's place among the four bytes of its pixel (log 4). -/
def channelOffset : Channel → Nat
  | .red => 0
  | .green => 1
  | .blue => 2
  | .alpha => 3

/-- The address of a channel of pixel `(x, y)`, `x, y < 65536` (log 4): the pixels are addressed by `(x, y)` (R12),
apart from any traversal order. -/
def pixKey (x y : Nat) (c : Channel) : Nat := (x * 65536 + y) * 4 + channelOffset c

/-- `x < W` and `y < H` (R39). -/
def inGrid (g : Grid) (x y : Nat) : Bool := decide (x < g.w.toNat) && decide (y < g.h.toNat)

/-- Address `a` is a channel of some pixel of a `w` by `h` grid, alpha only when the instance has it (R29). -/
def keyInGrid (hasAlpha : Bool) (w h : BitVec 16) (a : Nat) : Bool :=
  decide (a / 4 / 65536 < w.toNat) && decide (a / 4 % 65536 < h.toNat) && (hasAlpha || decide (a % 4 ≠ 3))

/-- A grid is well formed: canonical cells, every one of them a channel of one of its pixels. -/
abbrev Grid.WellFormed (hasAlpha : Bool) (g : Grid) : Prop :=
  cellsCanonical g.cells ∧ ∀ p ∈ g.cells, keyInGrid hasAlpha g.w g.h p.1 = true

/-- The value of a channel of pixel `(x, y)`. -/
def Grid.channel (g : Grid) (x y : Nat) (c : Channel) : Byte := readCell g.cells (pixKey x y c)

/-- What the pixel port reads (R37): alpha only when `HAS_ALPHA = 1`. -/
structure Pixel where
  r : Byte
  g : Byte
  b : Byte
  a : Option Byte
  deriving DecidableEq, Repr

/-- `PixRead(x, y)` (R37). The block reads only inside the grid (R39; log 8). -/
def pixRead (hasAlpha : Bool) (g : Grid) (x y : Nat) : Pixel :=
  { r := g.channel x y .red
    g := g.channel x y .green
    b := g.channel x y .blue
    a := if hasAlpha then some (g.channel x y .alpha) else none }

/-- `PixWriteBlue(x, y, v)` (R38): the blue channel alone, in place. A call outside the grid, which the block never
makes (R39; log 8), writes nothing. -/
def pixWriteBlue (g : Grid) (x y : Nat) (v : Byte) : Grid :=
  if inGrid g x y then { g with cells := writeCell g.cells (pixKey x y .blue) v } else g

/-- Add one described cell to a grid, if it is a channel of one of the grid's pixels (log 9). -/
def addCell (hasAlpha : Bool) (g : Grid) (p : Host.Cell) : Grid :=
  if keyInGrid hasAlpha g.w g.h p.1 then { g with cells := writeCell g.cells p.1 p.2 } else g

/-- The grid a list of cells describes (R47; log 9): a later cell of the same address wins. -/
def buildGrid (hasAlpha : Bool) (w h : BitVec 16) (cells : List Host.Cell) : Grid :=
  cells.foldl (addCell hasAlpha) { w := w, h := h, cells := [] }

end Sys2Proof.Machine
end

