-- ==== Sys2Proof/Machine/Ops.lean ====
section
/-! DEFINITION. The named operations on the state: raising an error and completing (60_exceptions.md R88, R89), writing
the buffers and the grid, clearing `STICKY`, reset. -/

namespace Sys2Proof.Machine

/-- `raise E(info)` (R88): the whole effect of an error. -/
def raise (e : ErrCode) (info : Word) (s : State) : State :=
  { s with
    status := { err := e, term := false, trunc := false, fits := false, sticky := true }
    errInfo := info }

/-- `complete(TERM = t, TRUNC = u, FITS = f)` (R89). -/
def complete (t u f : Bool) (s : State) : State :=
  { s with
    status := { err := .none, term := t, trunc := u, fits := f, sticky := s.status.sticky }
    errInfo := 0 }

/-- There is no return from an error (R91); what the host can undo of one is `STICKY` (R17), by writing 1 to it. -/
def clearSticky (s : State) : State := { s with status := { s.status with sticky := false } }

/-- `buf` with its first entries replaced by `vals`: entry `j` becomes `vals[j]`, the others keep their values (D20).
An entry past the end of `buf` is none of its entries (log 16). -/
def overwrite {α : Type} (vals buf : List α) : List α :=
  match vals, buf with
  | [], buf => buf
  | _ :: _, [] => []
  | v :: vs, _ :: bs => v :: overwrite vs bs

/-- `BIT[j] <- s[j]` for every `j < len(s)`, then `BIT_LEN <- len(s)` (R62, R70). -/
def writeBits (bits : List Bool) (s : State) : State :=
  { s with bit := overwrite bits s.bit, bitLen := BitVec.ofNat 32 bits.length }

/-- `MSG[k] <- zext_32(m[k])` for every `k < len(m)`, then `MSG_LEN <- len(m)` (R66, R64). -/
def writeMessage (m : List Byte) (s : State) : State :=
  { s with
    msg := overwrite (m.map (BitVec.setWidth 32)) s.msg
    msgLen := BitVec.ofNat 32 m.length }

/-- The blue value `b` with its lowest bit replaced (R68). -/
def blueWith (b : Byte) (bit : Bool) : Byte := (b &&& 0xFE#8) ||| (BitVec.ofBool bit).setWidth 8

/-- Embed one bit into the pixel of raster index `k` (R68). -/
def embedBit (hasAlpha : Bool) (g : Grid) (k : Nat) (bit : Bool) : Grid :=
  pixWriteBlue g (raster g.h.toNat k).1 (raster g.h.toNat k).2
    (blueWith (pixRead hasAlpha g (raster g.h.toNat k).1 (raster g.h.toNat k).2).b bit)

/-- The loop of `EMBED` (R68): `bits` into the pixels of raster index `k` and above, in order. -/
def embedFrom (hasAlpha : Bool) (k : Nat) (bits : List Bool) (g : Grid) : Grid :=
  match bits with
  | [] => g
  | b :: rest => embedFrom hasAlpha (k + 1) rest (embedBit hasAlpha g k b)

/-- Embed `bits` into the attached grid, from raster index 0 (R68). -/
def embedBits (bits : List Bool) (s : State) : State :=
  { s with grid := embedFrom s.cfg.hasAlpha 0 bits s.grid }

/-- Reset (R100 to R103): the registers of R101, fresh buffer contents (R102; log 2); the parameters, the grid store and
the host keep what they hold. -/
def resetBlock (s : State) : State :=
  { s with
    strict := false, status := Status.reset, errInfo := 0, msgLen := 0, bitLen := 0, reqPix := 0
    msg := drawMsg s.cfg s.draws, bit := drawBit s.cfg s.draws, draws := s.draws + 1 }

end Sys2Proof.Machine
end

