-- ==== Sys2Proof/Machine/Operands.lean ====
section
/-! DEFINITION. The operands of the commands, each with its checks (60_exceptions.md R83 to R85): the message, the bit
sequence, the extracted low bits, the capacity. A check either gives the operand or the error to raise. -/

namespace Sys2Proof.Machine

/-- An error about to be raised, with its `ERR_INFO` value (R82). -/
structure Raised where
  err : ErrCode
  info : Word
  deriving DecidableEq, Repr

/-- `N_BYTES`. -/
def nBytes (s : State) : Nat := s.cfg.nBytes.toNat

/-- `C = W * H` (R24). -/
def capacity (s : State) : Nat := s.grid.w.toNat * s.grid.h.toNat

/-- The code words `MSG[0 .. MSG_LEN-1]`. -/
def messageWords (s : State) : List Word := s.msg.take s.msgLen.toNat

/-- The characters of the message, `MSG[i][7:0]` (R62). -/
def messageBytes (s : State) : List Byte := (messageWords s).map (BitVec.setWidth 8)

/-- The lowest index of a code word above 255 (R83). -/
def firstIllegal (codes : List Word) : Option Nat := codes.findIdx? (fun c => decide (c.toNat > 255))

/-- `MSG_LEN`, refused when the framed bits would not fit in `BIT[]` (R85). -/
def messageLength (s : State) : Except Raised Nat :=
  if s.msgLen.toNat > nBytes s - 1 then .error { err := .lengthError, info := s.msgLen } else .ok s.msgLen.toNat

/-- The message that `FENC` and `HIDE` frame (R62, R72): length checked first (R90), then every code word. -/
def messageOperand (s : State) : Except Raised (List Byte) :=
  match messageLength s with
  | .error r => .error r
  | .ok _ =>
    match firstIllegal (messageWords s) with
    | some i => .error { err := .encodingError, info := BitVec.ofNat 32 i }
    | none => .ok (messageBytes s)

/-- The bits `BIT[0 .. BIT_LEN-1]` that `FDEC` and `EMBED` read (R66, R68), refused when the length names entries
outside `BIT[]` (R85). -/
def bitOperand (s : State) : Except Raised (List Bool) :=
  if s.bitLen.toNat > 8 * nBytes s then .error { err := .lengthError, info := s.bitLen }
  else .ok (s.bit.take s.bitLen.toNat)

/-- The strict capacity check of `EMBED` and `HIDE` on a count of `len` bits (R84). -/
def capacityCheck (len : Nat) (s : State) : Except Raised Unit :=
  if s.strict && decide (len > capacity s) then .error { err := .capacityExceeded, info := BitVec.ofNat 32 len }
  else .ok ()

/-- The lowest bit of the blue channel of the pixel of raster index `k` (R70). -/
def blueLowBit (hasAlpha : Bool) (g : Grid) (k : Nat) : Bool :=
  (pixRead hasAlpha g (raster g.h.toNat k).1 (raster g.h.toNat k).2).b.getLsbD 0

/-- The low bits of every pixel, in raster order (R70). -/
def extractedBits (s : State) : List Bool := (List.range (capacity s)).map (blueLowBit s.cfg.hasAlpha s.grid)

/-- The bits that `EXTRACT` and `REVEAL` read (R70, R74), refused when `BIT[]` is too small for the grid (R70, R85). -/
def gridBits (s : State) : Except Raised (List Bool) :=
  if capacity s > 8 * nBytes s then .error { err := .lengthError, info := BitVec.ofNat 32 (capacity s) }
  else .ok (extractedBits s)

/-- `requiredPixels` of a message of `n` characters (R76): the length of its frame (R58). -/
def requiredPixels (n : Nat) : Nat := if n = 0 then 0 else 8 * (n + 1)

end Sys2Proof.Machine
end

