-- ==== Sys2Proof/Machine/Composed.lean ====
section
/-! DEFINITION. The composed commands (42_composed.md). -/

namespace Sys2Proof.Machine

/-- `HIDE` (R72): every check before the first write (D17). -/
def execHide (s : State) : Host.Outcome State Fault Refusal :=
  match messageOperand s with
  | .error r => .next (raise r.err r.info s)
  | .ok m =>
    match capacityCheck (frame m).length s with
    | .error r => .next (raise r.err r.info s)
    | .ok _ =>
      .next (complete false (truncFlag (frame m).length (capacity s)) false
        (embedBits ((frame m).take (capacity s)) (writeBits (frame m) s)))

/-- `REVEAL` (R74): the bits extracted into `BIT[]`, then `BIT[0 .. C-1]` deframed into `MSG[]`. -/
def execReveal (s : State) : Host.Outcome State Fault Refusal :=
  match gridBits s with
  | .error r => .next (raise r.err r.info s)
  | .ok bits =>
    let found := deframe ((writeBits bits s).bit.take (capacity s))
    .next (complete found.2 false false (writeMessage found.1 (writeBits bits s)))

/-- `CAPCHECK` (R76): `MSG[]` is not read (D19). -/
def execCapcheck (s : State) : Host.Outcome State Fault Refusal :=
  match messageLength s with
  | .error r => .next (raise r.err r.info s)
  | .ok n =>
    .next (complete false false (fitsFlag (requiredPixels n) (capacity s))
      { s with reqPix := BitVec.ofNat 32 (requiredPixels n) })

end Sys2Proof.Machine
end

