-- ==== Sys2Proof/Machine/Embedder.lean ====
section
/-! DEFINITION. The Channel Embedder commands (41_embedder.md). -/

namespace Sys2Proof.Machine

/-- `EMBED` (R68). -/
def execEmbed (s : State) : Host.Outcome State Fault Refusal :=
  match bitOperand s with
  | .error r => .next (raise r.err r.info s)
  | .ok bits =>
    match capacityCheck s.bitLen.toNat s with
    | .error r => .next (raise r.err r.info s)
    | .ok _ =>
      .next (complete false (truncFlag s.bitLen.toNat (capacity s)) false (embedBits (bits.take (capacity s)) s))

/-- `EXTRACT` (R70). -/
def execExtract (s : State) : Host.Outcome State Fault Refusal :=
  match gridBits s with
  | .error r => .next (raise r.err r.info s)
  | .ok bits => .next (complete false false false (writeBits bits s))

end Sys2Proof.Machine
end

