-- ==== Sys2Proof/Machine/Framer.lean ====
section
/-! DEFINITION. The Bit Framer commands (40_framer.md). -/

namespace Sys2Proof.Machine

/-- `FENC` (R62). -/
def execFenc (s : State) : Host.Outcome State Fault Refusal :=
  match messageOperand s with
  | .error r => .next (raise r.err r.info s)
  | .ok m => .next (complete false false false (writeBits (frame m) s))

/-- `FDEC` (R66). -/
def execFdec (s : State) : Host.Outcome State Fault Refusal :=
  match bitOperand s with
  | .error r => .next (raise r.err r.info s)
  | .ok bits => .next (complete (deframe bits).2 false false (writeMessage (deframe bits).1 s))

end Sys2Proof.Machine
end

