-- ==== Sys2Proof/Machine/HostPort.lean ====
section
/-! DEFINITION. The host port (20_memory.md R31 to R36): the address map, `MemRead`, `MemWrite`. -/

namespace Sys2Proof.Machine

/-- What a word address names (R33). -/
inductive PortTarget where
  | id
  | caps
  | ctrl
  | cmd
  | status
  | errInfo
  | msgLen
  | bitLen
  | gridW
  | gridH
  | availPix
  | reqPix
  | msg (i : Nat)
  | bit (j : Nat)
  | reserved
  deriving DecidableEq, Repr

/-- The registers at word addresses 0 to 0xB, in the order of R33; the addresses above them are reserved. -/
def registerTarget (a : Nat) : PortTarget :=
  match a with
  | 0 => .id
  | 1 => .caps
  | 2 => .ctrl
  | 3 => .cmd
  | 4 => .status
  | 5 => .errInfo
  | 6 => .msgLen
  | 7 => .bitLen
  | 8 => .gridW
  | 9 => .gridH
  | 10 => .availPix
  | 11 => .reqPix
  | _ => .reserved

/-- First word address of `MSG[]` (R21). -/
abbrev msgBase : Nat := 0x01000000

/-- First word address of `BIT[]` (R22). -/
abbrev bitBase : Nat := 0x08000000

/-- The address map of an instance with `n` message entries (R33). -/
def portTarget (n : Nat) (addr : Word) : PortTarget :=
  let a := addr.toNat
  if a < msgBase then registerTarget a
  else if a < msgBase + n then .msg (a - msgBase)
  else if a < bitBase then .reserved
  else if a < bitBase + 8 * n then .bit (a - bitBase)
  else .reserved

/-- `ID` (R14). -/
def idWord : Word := 0x4C534231#32

/-- `CAPS` (R26): `N_BYTES` in [23:0], `HAS_ALPHA` in 24, the rest 0. -/
def capsWord (c : Config) : Word := 0#7 ++ BitVec.ofBool c.hasAlpha ++ c.nBytes

/-- `MemRead(addr, 1)` (R31): the word; no side effect on any state (R36). -/
def memRead (s : State) (addr : Word) : Word :=
  match portTarget (nBytes s) addr with
  | .id => idWord
  | .caps => capsWord s.cfg
  | .ctrl => bitWord s.strict
  | .cmd => 0
  | .status => statusWord s.status
  | .errInfo => s.errInfo
  | .msgLen => s.msgLen
  | .bitLen => s.bitLen
  | .gridW => s.grid.w.setWidth 32
  | .gridH => s.grid.h.setWidth 32
  | .availPix => BitVec.ofNat 32 (capacity s)
  | .reqPix => s.reqPix
  | .msg i => s.msg.getD i 0
  | .bit j => bitWord (s.bit.getD j false)
  | .reserved => 0

/-- A write of `w` to `CMD` (R16, R53): the command `w` names, or `ILLEGAL_COMMAND(w)` (R51, R86). -/
def runCommand (w : Word) (s : State) : Host.Outcome State Fault Refusal :=
  match decode w with
  | .ok i => exec i s
  | .error _ => .next (raise .illegalCommand w s)

/-- `MemWrite(addr, 1, v)` (R32). Read-only registers and reserved addresses ignore it (R34, R35). -/
def memWrite (addr v : Word) (s : State) : Host.Outcome State Fault Refusal :=
  match portTarget (nBytes s) addr with
  | .ctrl => .next { s with strict := v.getLsbD 0 }
  | .cmd => runCommand v s
  | .status => .next (if v.getLsbD 16 then clearSticky s else s)
  | .msgLen => .next { s with msgLen := v }
  | .bitLen => .next { s with bitLen := v }
  | .msg i => .next { s with msg := s.msg.set i v }
  | .bit j => .next { s with bit := s.bit.set j (v.getLsbD 0) }
  | .id | .caps | .errInfo | .gridW | .gridH | .availPix | .reqPix | .reserved => .next s

end Sys2Proof.Machine
end

