-- ==== Sys2Proof/Machine/HostProgram.lean ====
section
/-! DEFINITION. The host that drives the block (30_encoding.md R54; 70_reset_and_hazards.md R112): what each host
operation does, the pseudo forms' expansions, and one step. -/

namespace Sys2Proof.Machine

/-- Word address of `CTRL` (R15). -/
def ctrlAddr : Word := 0x2#32
/-- Word address of `CMD` (R16). -/
def cmdAddr : Word := 0x3#32
/-- Word address of `STATUS` (R17). -/
def statusAddr : Word := 0x4#32
/-- Word address of `MSG_LEN` (R19). -/
def msgLenAddr : Word := 0x6#32
/-- Word address of `BIT_LEN` (R20). -/
def bitLenAddr : Word := 0x7#32
/-- `MSG+i` (R54). -/
def msgAddr (i : Nat) : Word := BitVec.ofNat 32 (msgBase + i)
/-- `BIT+j` (R54). -/
def bitAddr (j : Nat) : Word := BitVec.ofNat 32 (bitBase + j)

/-- The host goes on at position `k` of its program. -/
def goto (k : Nat) (s : State) : State := { s with hpc := k }

/-- The host goes on at the next operation. -/
def advance (s : State) : State := goto (s.hpc + 1) s

/-- `RD addr`: the host notes the word `MemRead` returns (R31, R54). The block does not change. -/
def noteRead (addr : Word) (s : State) : State := { s with notes := s.notes ++ [memRead s addr] }

/-- `BRSET`, `BRCLR`: a read, then on at `label` when the bit has the wanted value (R54; log 6). -/
def branchOn (addr : Word) (bit : Fin 32) (label : Nat) (want : Bool) (s : State) : State :=
  goto (if (memRead s addr).getLsbD bit.val = want then label else s.hpc + 1) (noteRead addr s)

/-- Attach `g` in the grid store (R47). -/
def attachGrid (g : Grid) (s : State) : State := { s with grid := g }

/-- Attach the `k`-th kept copy; where there is none the attached grid stays (R87; log 10). DESIGN CHOICE (log 10): the
attached grid is then a grid of its own with the copy's values, so that an `EMBED` or `HIDE` that writes it in place
leaves the kept copy as it is. -/
def attachKept (k : Nat) (s : State) : State :=
  match s.copies[k]? with
  | some g => attachGrid g s
  | none => s

/-- One host operation. -/
def runHostOp (op : HostOp) (s : State) : Host.Outcome State Fault Refusal :=
  match op with
  | .rd addr => .next (advance (noteRead addr s))
  | .wr addr v => memWrite addr v (advance s)
  | .brset addr bit label => .next (branchOn addr bit label true s)
  | .brclr addr bit label => .next (branchOn addr bit label false s)
  | .jmp label => .next (goto label s)
  | .halt => .next s
  | .attach w h cells => .next (advance (attachGrid (buildGrid s.cfg.hasAlpha w h cells) s))
  | .copyGrid => .next (advance { s with copies := s.copies ++ [s.grid] })
  | .attachCopy k => .next (advance (attachKept k s))
  | .reset => .next (advance (resetBlock s))

/-- One step: the host's next operation; when its program is over the block is idle and nothing changes
(R99, R105; log 7). -/
def hostStep (s : State) : Host.Outcome State Fault Refusal :=
  match s.prog[s.hpc]? with
  | none => .next s
  | some op => runHostOp op s

/-- `prog` with `op` at position `k`; positions the program did not have before `k` become `HALT` (log 5). -/
def placeOp (k : Nat) (op : HostOp) (prog : List HostOp) : List HostOp :=
  match k, prog with
  | 0, [] => [op]
  | 0, _ :: rest => op :: rest
  | k + 1, [] => .halt :: placeOp k op []
  | k + 1, o :: rest => o :: placeOp k op rest

/-- A command as the host writes it (R54): `WR CMD, <full word>`. -/
def commandOp (i : Instr) : HostOp := .wr cmdAddr (encode i)

/-- `CMD.RAW w` (R54). -/
def cmdRaw (w : Word) : HostOp := .wr cmdAddr w

/-- `LDMSG c0, ..., c(n-1)` (R54): the entries in order, then `MSG_LEN`. -/
def ldMsg (codes : List Word) : List HostOp :=
  codes.mapIdx (fun i c => .wr (msgAddr i) c) ++ [.wr msgLenAddr (BitVec.ofNat 32 codes.length)]

/-- `LDMSG "text"` (R54): `LDMSG` of the character codes. DESIGN CHOICE (log 19): the code of a character is its Unicode code
point; the spec names no character set (91_not_in_source.md G11). -/
def ldMsgText (text : List Char) : List HostOp := ldMsg (text.map fun c => BitVec.ofNat 32 c.toNat)

/-- `LDBITS "b0 ... b(L-1)"` (R54): the entries in order, then `BIT_LEN`. -/
def ldBits (bits : List Bool) : List HostOp :=
  bits.mapIdx (fun j b => .wr (bitAddr j) (bitWord b)) ++ [.wr bitLenAddr (BitVec.ofNat 32 bits.length)]

/-- `STRICT 1` and `STRICT 0` (R54). -/
def strictOp (on : Bool) : HostOp := .wr ctrlAddr (bitWord on)

/-- `CLRSTICKY` (R54). -/
def clrStickyOp : HostOp := .wr statusAddr 0x00010000#32

end Sys2Proof.Machine
end

