-- ==== Sys2Proof/Machine/Step.lean ====
section
/-! DEFINITION. One step of the system, and placing a command where the next step takes it. -/

namespace Sys2Proof.Machine

/-- One host operation, with whatever command it runs, as one atomic transition (20_memory.md R42, R43). -/
def step (s : State) : Host.Outcome State Fault Refusal := hostStep s

/-- The host's next operation becomes the write of the word with bits `w` to `CMD` (log 5): the block fetches nothing
(10_state.md R28), a command arrives as that write. A number that is no 32-bit word is no command word: no change. -/
def State.withFetchWord (s : State) (nbits w : Nat) : State :=
  match tableWord nbits w with
  | some word => { s with prog := placeOp s.hpc (cmdRaw word) s.prog }
  | none => s

end Sys2Proof.Machine
end

