-- ==== Sys2Proof/Safety.lean ====
section
/-! DEFINITION. What a legal state is, and the relations between a state and the next in which the statements speak. -/

namespace Sys2Proof.Machine

/-- The status registers agree (60_exceptions.md R88, R89): after an error no flag is set, after a success `ERR_INFO` is
0, and no two flags stand together, since no command sets two (10_state.md R17). -/
abbrev statusConsistent (s : State) : Prop :=
  (s.status.err ≠ .none → s.status.term = false ∧ s.status.trunc = false ∧ s.status.fits = false) ∧
  (s.status.err = .none → s.errInfo = 0) ∧
  (s.status.term && s.status.trunc) = false ∧ (s.status.term && s.status.fits) = false ∧
  (s.status.trunc && s.status.fits) = false

/-- `REQ_PIX` is 0 or the length of a frame that fits in `BIT[]` (42_composed.md R76). -/
abbrev reqPixLegal (s : State) : Prop :=
  s.reqPix.toNat = 0 ∨ (16 ≤ s.reqPix.toNat ∧ s.reqPix.toNat ≤ 8 * nBytes s ∧ s.reqPix.toNat % 8 = 0)

/-- The buffers have the entries the parameters give them (10_state.md R21, R22). -/
abbrev buffersSized (s : State) : Prop := s.msg.length = nBytes s ∧ s.bit.length = 8 * nBytes s

/-- The attached grid and every kept copy are in canonical form, with cells of their own pixels only (R29). -/
abbrev gridsCanonical (s : State) : Prop :=
  s.grid.WellFormed s.cfg.hasAlpha ∧ ∀ g ∈ s.copies, g.WellFormed s.cfg.hasAlpha

/-- The legal states: legal parameters (00_scope.md R7), buffers of their size, canonical grids, consistent status
registers, a legal `REQ_PIX`. -/
abbrev State.Inv (s : State) : Prop :=
  s.cfg.WellFormed ∧ buffersSized s ∧ gridsCanonical s ∧ statusConsistent s ∧ reqPixLegal s

/-- `t` is a state right after reset, of a block with parameters `c` and attached grid `g` (R100): the state before any
host operation, or the state after a host step that asserted reset. -/
def justReset (c : Config) (g : Grid) (t : State) : Prop :=
  t = State.fresh c g ∨
    ∃ s : State, s.cfg = c ∧ s.grid = g ∧ s.prog[s.hpc]? = some .reset ∧ step s = .next t

/-- The code word `MSG[i]`. -/
def msgAt (s : State) (i : Nat) : Word := s.msg.getD i 0

/-- The bit `BIT[j]`. -/
def bitAt (s : State) (j : Nat) : Bool := s.bit.getD j false

/-- The lowest bit of the blue channel of the `k`-th pixel in column-major order (R67). -/
def lowBitAt (g : Grid) (k : Nat) : Bool :=
  (g.channel (k / g.h.toNat) (k % g.h.toNat) .blue).getLsbD 0

/-- Every code word of the message is a character (R83). -/
abbrev messageLegal (s : State) : Prop := ∀ i < s.msgLen.toNat, (msgAt s i).toNat ≤ 255

/-- `i` is the lowest index of a code word above 255 (R83). -/
abbrev lowestIllegal (s : State) (i : Nat) : Prop :=
  i < s.msgLen.toNat ∧ 255 < (msgAt s i).toNat ∧ ∀ j < i, (msgAt s j).toNat ≤ 255

/-- `t`'s bit buffer is `s`'s with the frame of `s`'s message at its front (R57, R62): each character most significant
bit first, then the terminator, the entries beyond it as before (D20); `BIT_LEN` is the frame's length. -/
def framesMessage (s t : State) : Prop :=
  t.bitLen.toNat = (if s.msgLen.toNat = 0 then 0 else 8 * (s.msgLen.toNat + 1)) ∧
  (∀ i < s.msgLen.toNat, ∀ j < 8, t.bit[8 * i + j]? = some ((msgAt s i).getLsbD (7 - j))) ∧
  (0 < s.msgLen.toNat → ∀ j < 8, t.bit[8 * s.msgLen.toNat + j]? = some false) ∧
  ∀ j, t.bitLen.toNat ≤ j → t.bit[j]? = s.bit[j]?

/-- `t`'s message buffer is `s`'s with the characters of `m` at its front, the entries beyond them as before (R66, D20);
`MSG_LEN` is their number. -/
def holdsMessage (m : List Byte) (s t : State) : Prop :=
  t.msgLen.toNat = m.length ∧
  (∀ k < m.length, t.msg[k]? = m[k]?.map (BitVec.setWidth 32)) ∧
  ∀ k, m.length ≤ k → t.msg[k]? = s.msg[k]?

/-- `t`'s bit buffer is `s`'s with the low blue bits of `s`'s grid at its front, one for each pixel, the entries beyond
them as before (R70, D20); `BIT_LEN` is their number. -/
def holdsGridBits (s t : State) : Prop :=
  t.bitLen.toNat = s.grid.w.toNat * s.grid.h.toNat ∧
  (∀ x < s.grid.w.toNat, ∀ y < s.grid.h.toNat,
    t.bit[x * s.grid.h.toNat + y]? = some ((s.grid.channel x y .blue).getLsbD 0)) ∧
  ∀ j, s.grid.w.toNat * s.grid.h.toNat ≤ j → t.bit[j]? = s.bit[j]?

/-- `g'` is `g` with `bits k` in the lowest blue bit of the `k`-th pixel in column-major order, for every `k < m`, and
no other byte changed (R69). The last clause speaks of every byte of memory: only the blue bytes of those pixels are
written. -/
def gridEmbeds (bits : Nat → Bool) (m : Nat) (g g' : Grid) : Prop :=
  g'.w = g.w ∧ g'.h = g.h ∧
  (∀ x < g.w.toNat, ∀ y < g.h.toNat,
    g'.channel x y .blue =
      if x * g.h.toNat + y < m then
        (g.channel x y .blue &&& 0xFE#8) ||| (BitVec.ofBool (bits (x * g.h.toNat + y))).setWidth 8
      else g.channel x y .blue) ∧
  ∀ a, (∀ k < m, a ≠ pixKey (k / g.h.toNat) (k % g.h.toNat) .blue) → readCell g'.cells a = readCell g.cells a

/-- `STATUS` after a command that ended well from state `s` (R89): no error, the flags it computed, `STICKY` as it was. -/
def successStatus (term trunc fits : Bool) (s : State) : Status :=
  { err := .none, term := term, trunc := trunc, fits := fits, sticky := s.status.sticky }

/-- Everything of `t` but the fields a command may write is as in `s`: the parameters, `CTRL`, the kept copies, the host
and the count of draws. -/
def outsideCommandKept (s t : State) : Prop :=
  t.cfg = s.cfg ∧ t.strict = s.strict ∧ t.copies = s.copies ∧ t.prog = s.prog ∧ t.hpc = s.hpc ∧
  t.notes = s.notes ∧ t.draws = s.draws

end Sys2Proof.Machine
end

