-- ==== Sys2Proof/Certificates/Slice0/Obligations.lean ====
section
/-! DEFINITION. The statements for the provers. Each docstring names the rules of spec/ it formalises. -/

open Sys2Proof Sys2Proof.Machine

/-! ## Reset -/

/-- R100, R101: right after reset the registers hold their reset values, as the host reads them at the word addresses of
10_state.md; `CAPS` reports the parameters, and `GRID_W`, `GRID_H` and `AVAIL_PIX` read the attached grid. -/
def Obligations.ResetSetsEveryRegister : Prop :=
  ∀ (c : Config) (g : Grid) (t : State), justReset c g t →
    memRead t 0x0#32 = 0x4C534231#32 ∧
    (memRead t 0x1#32).toNat = c.nBytes.toNat + 2 ^ 24 * c.hasAlpha.toNat ∧
    t.strict = false ∧ memRead t 0x2#32 = 0 ∧ memRead t 0x3#32 = 0 ∧
    t.status = { err := .none, term := false, trunc := false, fits := false, sticky := false } ∧
    memRead t 0x4#32 = 0 ∧ memRead t 0x5#32 = 0 ∧ memRead t 0x6#32 = 0 ∧ memRead t 0x7#32 = 0 ∧
    (memRead t 0x8#32).toNat = g.w.toNat ∧ (memRead t 0x9#32).toNat = g.h.toNat ∧
    (memRead t 0xA#32).toNat = g.w.toNat * g.h.toNat ∧
    memRead t 0xB#32 = 0

/-- R103: a host step that asserts reset does not touch the attached grid: width, height and every pixel stay. -/
def Obligations.ResetLeavesTheGridStore : Prop :=
  ∀ s : State, s.prog[s.hpc]? = some .reset →
    ∃ t, step s = .next t ∧ t.grid = s.grid ∧ t.grid.w = s.grid.w ∧ t.grid.h = s.grid.h ∧
      ∀ (x y : Nat) (c : Channel), t.grid.channel x y c = s.grid.channel x y c

/-- R100 as the model reads it (logs 10 and 17): reset keeps the parameters, the copies of the grid store, the host's
program and what the host noted; the host goes on with its next operation, and the buffers have their entries. -/
def Obligations.ResetKeepsTheHost : Prop :=
  ∀ s : State, s.prog[s.hpc]? = some .reset →
    ∃ t, step s = .next t ∧ t.cfg = s.cfg ∧ t.copies = s.copies ∧ t.prog = s.prog ∧ t.notes = s.notes ∧
      t.hpc = s.hpc + 1 ∧ t.msg.length = nBytes s ∧ t.bit.length = 8 * nBytes s

/-- R101, R102: the state after reset is legal, whatever the parameters and the grid, and so is `State.reset`, whose
instance and grid are the model's choice (logs 1 and 3). That the grid store keeps no copies in either, and the
canonical form of a grid, are the model's choice too (logs 10 and 4). -/
def Obligations.ResetStateIsLegal : Prop :=
  (∀ (c : Config) (g : Grid), c.WellFormed → g.WellFormed c.hasAlpha → (State.fresh c g).Inv) ∧ State.reset.Inv

/-! ## The host port -/

/-- R33: the whole address map: the registers in their order, the `MSG[]` window, the `BIT[]` window, and the three
reserved ranges, which hold nothing. -/
def Obligations.PortReadsRegistersAndBuffers : Prop :=
  ∀ s : State,
    memRead s 0x0#32 = 0x4C534231#32 ∧
    (memRead s 0x1#32).toNat = s.cfg.nBytes.toNat + 2 ^ 24 * s.cfg.hasAlpha.toNat ∧
    (memRead s 0x2#32).toNat = s.strict.toNat ∧ memRead s 0x3#32 = 0 ∧
    memRead s 0x4#32 = statusWord s.status ∧ memRead s 0x5#32 = s.errInfo ∧
    memRead s 0x6#32 = s.msgLen ∧ memRead s 0x7#32 = s.bitLen ∧
    (memRead s 0x8#32).toNat = s.grid.w.toNat ∧ (memRead s 0x9#32).toNat = s.grid.h.toNat ∧
    (memRead s 0xA#32).toNat = s.grid.w.toNat * s.grid.h.toNat ∧ memRead s 0xB#32 = s.reqPix ∧
    (∀ i < s.cfg.nBytes.toNat, memRead s (BitVec.ofNat 32 (0x01000000 + i)) = s.msg.getD i 0) ∧
    (∀ j < 8 * s.cfg.nBytes.toNat,
      (memRead s (BitVec.ofNat 32 (0x08000000 + j))).toNat = (s.bit.getD j false).toNat) ∧
    (∀ a : Word, 0x0000000C ≤ a.toNat → a.toNat ≤ 0x00FFFFFF → memRead s a = 0) ∧
    (∀ a : Word, 0x01000000 + s.cfg.nBytes.toNat ≤ a.toNat → a.toNat ≤ 0x07FFFFFF → memRead s a = 0) ∧
    (∀ a : Word, 0x08000000 + 8 * s.cfg.nBytes.toNat ≤ a.toNat → memRead s a = 0) ∧
    0x01000000 + s.cfg.nBytes.toNat ≤ 0x02000000 ∧ 0x08000000 + 8 * s.cfg.nBytes.toNat ≤ 0x10000000

/-- R34: every address outside the registers and the two windows reads 0 and ignores writes. -/
def Obligations.ReservedAddressesReadZeroAndIgnoreWrites : Prop :=
  ∀ (s : State) (a v : Word),
    0xB < a.toNat →
    ¬ (0x01000000 ≤ a.toNat ∧ a.toNat < 0x01000000 + s.cfg.nBytes.toNat) →
    ¬ (0x08000000 ≤ a.toNat ∧ a.toNat < 0x08000000 + 8 * s.cfg.nBytes.toNat) →
    memRead s a = 0 ∧ memWrite a v s = .next s

/-- R35: `ID`, `CAPS`, `ERR_INFO`, `GRID_W`, `GRID_H`, `AVAIL_PIX` and `REQ_PIX` ignore writes; a write to `STATUS`
changes no field but `STICKY`; the reserved bits of a word written to `CTRL` or `STATUS` have no effect, and they read 0
in every state. -/
def Obligations.ReadOnlyRegistersIgnoreWrites : Prop :=
  ∀ (s : State) (v : Word),
    (∀ a ∈ [0x0#32, 0x1#32, 0x5#32, 0x8#32, 0x9#32, 0xA#32, 0xB#32], memWrite a v s = .next s) ∧
    (∃ t, memWrite 0x4#32 v s = .next t ∧ t = { s with status := { s.status with sticky := t.status.sticky } }) ∧
    memWrite 0x2#32 v s = memWrite 0x2#32 (v &&& 0x1#32) s ∧
    memWrite 0x4#32 v s = memWrite 0x4#32 (v &&& 0x10000#32) s ∧
    (∀ b < 32, 0 < b → (memRead s 0x2#32).getLsbD b = false) ∧
    (∀ b < 32, b ∉ [0, 1, 2, 3, 8, 9, 10, 16] → (memRead s 0x4#32).getLsbD b = false)

/-- R15: a write to `CTRL` stores bit 0 in `STRICT`, discards the others, and changes nothing else. -/
def Obligations.CtrlWriteStoresStrict : Prop :=
  ∀ (s : State) (v : Word),
    ∃ t, memWrite 0x2#32 v s = .next t ∧ t = { s with strict := v.getLsbD 0 } ∧
      (memRead t 0x2#32).toNat = v.toNat % 2

/-- R17, R82: the places of the fields in the word the host reads, the codes of `ERR`, and the write that clears `STICKY`
alone. -/
def Obligations.StatusWordLayoutAndClear : Prop :=
  ∀ (s : State) (v : Word),
    ((memRead s 0x4#32).extractLsb' 0 4).toNat =
      (match s.status.err with
        | .none => 0
        | .encodingError => 1
        | .capacityExceeded => 2
        | .lengthError => 3
        | .illegalCommand => 4) ∧
    (memRead s 0x4#32).getLsbD 8 = s.status.term ∧ (memRead s 0x4#32).getLsbD 9 = s.status.trunc ∧
    (memRead s 0x4#32).getLsbD 10 = s.status.fits ∧ (memRead s 0x4#32).getLsbD 16 = s.status.sticky ∧
    memWrite 0x4#32 v s =
      .next { s with status := { s.status with sticky := s.status.sticky && !v.getLsbD 16 } }

/-- R19, R20, R21, R22: a write to a length register or a buffer entry stores the word (bit 0 of it in `BIT[]`), reads
back, and leaves every other entry, register and address as it was. -/
def Obligations.HostWriteReadsBack : Prop :=
  ∀ (s : State) (v : Word), s.Inv →
    (∃ t, memWrite 0x6#32 v s = .next t ∧ t = { s with msgLen := v } ∧ memRead t 0x6#32 = v) ∧
    (∃ t, memWrite 0x7#32 v s = .next t ∧ t = { s with bitLen := v } ∧ memRead t 0x7#32 = v) ∧
    (∀ i < nBytes s, ∃ t, memWrite (BitVec.ofNat 32 (0x01000000 + i)) v s = .next t ∧ t = { s with msg := t.msg } ∧
      memRead t (BitVec.ofNat 32 (0x01000000 + i)) = v ∧
      ∀ a : Word, a ≠ BitVec.ofNat 32 (0x01000000 + i) → memRead t a = memRead s a) ∧
    (∀ j < 8 * nBytes s, ∃ t, memWrite (BitVec.ofNat 32 (0x08000000 + j)) v s = .next t ∧ t = { s with bit := t.bit } ∧
      (memRead t (BitVec.ofNat 32 (0x08000000 + j))).toNat = v.toNat % 2 ∧
      ∀ a : Word, a ≠ BitVec.ofNat 32 (0x08000000 + j) → memRead t a = memRead s a)

/-! ## Encoding -/

/-- R50: the seven legal words, written out, each select their command. -/
def Obligations.LegalWordsSelectTheirCommands : Prop :=
  decode 0x00000001#32 = .ok .fenc ∧ decode 0x00000002#32 = .ok .fdec ∧ decode 0x00000003#32 = .ok .embed ∧
  decode 0x00000004#32 = .ok .extract ∧ decode 0x00000005#32 = .ok .hide ∧ decode 0x00000006#32 = .ok .reveal ∧
  decode 0x00000007#32 = .ok .capcheck

/-- R49 to R52: every command decodes from its own word and from no other; every word that is no command is refused under
the name of its kind. -/
def Obligations.DecodeAndEncodeAgree : Prop :=
  (∀ i : Instr, i.WellFormed → decode (encode i) = .ok i) ∧
  (∀ (w : Word) (i : Instr), decode w = .ok i ↔ w = encode i) ∧
  ∀ w : Word,
    (decode w = .error .nonzeroZ ↔ 256 ≤ w.toNat) ∧
    (decode w = .error .zeroOp ↔ w.toNat = 0) ∧
    (decode w = .error .unassignedOp ↔ 8 ≤ w.toNat ∧ w.toNat ≤ 255)

/-- R51, R86: writing to `CMD` any word but the seven raises `ILLEGAL_COMMAND` with the whole word, and changes
nothing but `STATUS` and `ERR_INFO`. -/
def Obligations.EveryOtherWordRaisesIllegalCommand : Prop :=
  ∀ (s : State) (w : Word), ¬ (1 ≤ w.toNat ∧ w.toNat ≤ 7) →
    memWrite 0x3#32 w s =
      .next { s with
        status := { err := .illegalCommand, term := false, trunc := false, fits := false, sticky := true }
        errInfo := w }

/-! ## The step -/

/-- R32, R53, R54: when the host's next operation is a write of any word to any address, the step is that write to the
port, the host having moved on to its following operation; so when it writes to `CMD` a word that decodes to `i`, the step
is `exec i`. -/
def Obligations.StepRunsTheDecodedCommand : Prop :=
  (∀ (s : State) (a v : Word), s.prog[s.hpc]? = some (.wr a v) →
    step s = memWrite a v { s with hpc := s.hpc + 1 }) ∧
  ∀ (s : State) (w : Word) (i : Instr), s.prog[s.hpc]? = some (.wr 0x3#32 w) → decode w = .ok i →
    step s = exec i { s with hpc := s.hpc + 1 }

/-- R31, R36: a host read gives the host the word at the address, and changes nothing else. -/
def Obligations.HostReadHasNoSideEffect : Prop :=
  ∀ (s : State) (a : Word), s.prog[s.hpc]? = some (.rd a) →
    step s = .next { s with hpc := s.hpc + 1, notes := s.notes ++ [memRead s a] }

/-- R54, labels and noted values as log 6 says: the host's own control flow. A branch reads the word, notes it, and goes on at its label exactly when the bit
has the value it asks for; a jump goes on at its label; neither changes the block. -/
def Obligations.HostControlFlow : Prop :=
  ∀ (s : State) (a : Word) (b : Fin 32) (l : Nat),
    (s.prog[s.hpc]? = some (.brset a b l) →
      step s = .next { s with
        hpc := if (memRead s a).getLsbD b.val then l else s.hpc + 1
        notes := s.notes ++ [memRead s a] }) ∧
    (s.prog[s.hpc]? = some (.brclr a b l) →
      step s = .next { s with
        hpc := if (memRead s a).getLsbD b.val then s.hpc + 1 else l
        notes := s.notes ++ [memRead s a] }) ∧
    (s.prog[s.hpc]? = some (.jmp l) → step s = .next { s with hpc := l })

/-- R99, R105 (log 7): once the host's program is over, or at `HALT`, the block is idle: nothing changes. -/
def Obligations.IdleAfterTheProgram : Prop :=
  ∀ s : State, s.prog[s.hpc]? = none ∨ s.prog[s.hpc]? = some .halt → step s = .next s

/-- R47: attaching a grid replaces width, height and every pixel by those described (the later of two descriptions of one
byte, log 9), and touches nothing of the block. -/
def Obligations.AttachReplacesTheGrid : Prop :=
  ∀ (s : State) (w h : BitVec 16) (cells : List Host.Cell), s.prog[s.hpc]? = some (.attach w h cells) →
    ∃ t, step s = .next t ∧ t = { s with grid := t.grid, hpc := s.hpc + 1 } ∧
      t.grid.w = w ∧ t.grid.h = h ∧
      (∀ (before after : List Host.Cell) (a : Nat) (v : Byte), cells = before ++ (a, v) :: after →
        keyInGrid s.cfg.hasAlpha w h a = true → (∀ p ∈ after, p.1 ≠ a) → readCell t.grid.cells a = v) ∧
      (∀ a : Nat, (∀ p ∈ cells, p.1 ≠ a) → readCell t.grid.cells a = unlistedByte)

/-- R112, the form of the copies being the model's choice (log 10): a copy is a copy of the attached grid; attaching the
`k`-th copy makes its values the attached grid and keeps the copy, and where there is none nothing is attached. -/
def Obligations.CopiesAreKeptAndAttached : Prop :=
  ∀ (s : State) (k : Nat) (g : Grid),
    (s.prog[s.hpc]? = some .copyGrid → step s = .next { s with copies := s.copies ++ [s.grid], hpc := s.hpc + 1 }) ∧
    (s.prog[s.hpc]? = some (.attachCopy k) → s.copies[k]? = some g →
      step s = .next { s with grid := g, hpc := s.hpc + 1 }) ∧
    (s.prog[s.hpc]? = some (.attachCopy k) → s.copies[k]? = none → step s = .next { s with hpc := s.hpc + 1 })

/-! ## Errors and completion -/

/-- R88: the effect of `raise`, and that whatever is written to `CMD`, if it ends in an error then only `STATUS` and
`ERR_INFO` have changed, the flags are 0 and `STICKY` is 1. -/
def Obligations.ErrorsArePrecise : Prop :=
  (∀ (e : ErrCode) (info : Word) (s : State),
    raise e info s = { s with
      status := { err := e, term := false, trunc := false, fits := false, sticky := true }
      errInfo := info }) ∧
  ∀ (s t : State) (w : Word), runCommand w s = .next t → t.status.err ≠ .none →
    t = { s with
      status := { err := t.status.err, term := false, trunc := false, fits := false, sticky := true }
      errInfo := t.errInfo }

/-- R89: the effect of `complete`, and that whatever is written to `CMD`, if it ends without error then `ERR_INFO` is 0
and `STICKY` is unchanged. The last clause, that a command writes neither the parameters nor `CTRL` (R50, R88), nor a kept
copy, nor anything of the host, nor the count of draws, is the model's reading: the copies are log 10's choice, the host's
fields log 5's, the count log 2's. -/
def Obligations.CompletionClearsErrInfoAndKeepsSticky : Prop :=
  (∀ (t u f : Bool) (s : State),
    complete t u f s = { s with
      status := { err := .none, term := t, trunc := u, fits := f, sticky := s.status.sticky }
      errInfo := 0 }) ∧
  ∀ (s t : State) (w : Word), runCommand w s = .next t →
    (t.status.err = .none → t.errInfo = 0 ∧ t.status.sticky = s.status.sticky) ∧ outsideCommandKept s t

/-- R91: no error stops the block, nor does anything else: every step of every state has a next state. -/
def Obligations.NothingStopsTheBlock : Prop :=
  ∀ s : State, ∃ t, step s = .next t

/-- R82, R90: the error a command reports is the first of the conditions that holds, in the order ILLEGAL, LENGTH,
ENCODING, CAPACITY, and none when none holds; an `ENCODING_ERROR` names the lowest index. -/
def Obligations.ErrorsByPriority : Prop :=
  ∀ (s t : State) (w : Word), s.Inv → runCommand w s = .next t →
    (t.status.err = .encodingError → lowestIllegal s t.errInfo.toNat) ∧
    t.status.err =
      if ¬ (1 ≤ w.toNat ∧ w.toNat ≤ 7) then .illegalCommand
      else if (w.toNat = 1 ∨ w.toNat = 5 ∨ w.toNat = 7) ∧ nBytes s - 1 < s.msgLen.toNat then .lengthError
      else if (w.toNat = 2 ∨ w.toNat = 3) ∧ 8 * nBytes s < s.bitLen.toNat then .lengthError
      else if (w.toNat = 4 ∨ w.toNat = 6) ∧ 8 * nBytes s < s.grid.w.toNat * s.grid.h.toNat then .lengthError
      else if (w.toNat = 1 ∨ w.toNat = 5) ∧ ¬ messageLegal s then .encodingError
      else if w.toNat = 3 ∧ s.strict = true ∧ s.grid.w.toNat * s.grid.h.toNat < s.bitLen.toNat then
        .capacityExceeded
      else if w.toNat = 5 ∧ s.strict = true ∧
          s.grid.w.toNat * s.grid.h.toNat < (if s.msgLen.toNat = 0 then 0 else 8 * (s.msgLen.toNat + 1)) then
        .capacityExceeded
      else .none

/-- R85: the three conditions of `LENGTH_ERROR`, each with the offending length in `ERR_INFO`. -/
def Obligations.LengthErrorsNameTheLength : Prop :=
  ∀ s : State,
    (nBytes s - 1 < s.msgLen.toNat → ∀ i ∈ [Instr.fenc, .hide, .capcheck],
      exec i s = .next (raise .lengthError s.msgLen s)) ∧
    (8 * nBytes s < s.bitLen.toNat → ∀ i ∈ [Instr.fdec, .embed],
      exec i s = .next (raise .lengthError s.bitLen s)) ∧
    (8 * nBytes s < s.grid.w.toNat * s.grid.h.toNat → ∀ i ∈ [Instr.extract, .reveal],
      ∃ t, exec i s = .next t ∧ t = raise .lengthError t.errInfo s ∧
        t.errInfo.toNat = s.grid.w.toNat * s.grid.h.toNat)

/-- R83: `FENC` and `HIDE` refuse a code word above 255 and record the lowest index of one, before any write. -/
def Obligations.EncodingErrorNamesTheLowestIndex : Prop :=
  ∀ (s : State) (k : Nat), s.Inv → s.msgLen.toNat ≤ nBytes s - 1 → lowestIllegal s k →
    ∀ i ∈ [Instr.fenc, .hide],
      ∃ t, exec i s = .next t ∧ t = raise .encodingError t.errInfo s ∧ t.errInfo.toNat = k

/-- R84: in strict mode a bit count above the capacity is refused before any write, with the count in `ERR_INFO`; with
`STRICT = 0` the same condition is no error and sets `TRUNC`; a count within the capacity is no error in either mode; and
the error is raised in strict mode only, by `EMBED` and `HIDE` only. -/
def Obligations.CapacityExceededOnlyInStrictMode : Prop :=
  ∀ s : State, s.Inv →
    (s.bitLen.toNat ≤ 8 * nBytes s → s.grid.w.toNat * s.grid.h.toNat < s.bitLen.toNat →
      (s.strict = true → exec .embed s = .next (raise .capacityExceeded s.bitLen s)) ∧
      (s.strict = false → ∃ t, exec .embed s = .next t ∧ t.status.err = .none ∧ t.status.trunc = true)) ∧
    (s.bitLen.toNat ≤ 8 * nBytes s → s.bitLen.toNat ≤ s.grid.w.toNat * s.grid.h.toNat →
      ∃ t, exec .embed s = .next t ∧ t.status.err = .none ∧ t.status.trunc = false) ∧
    (s.msgLen.toNat ≤ nBytes s - 1 → messageLegal s → 0 < s.msgLen.toNat →
      s.grid.w.toNat * s.grid.h.toNat < 8 * (s.msgLen.toNat + 1) →
      (s.strict = true → ∃ t, exec .hide s = .next t ∧ t = raise .capacityExceeded t.errInfo s ∧
        t.errInfo.toNat = 8 * (s.msgLen.toNat + 1)) ∧
      (s.strict = false → ∃ t, exec .hide s = .next t ∧ t.status.err = .none ∧ t.status.trunc = true)) ∧
    (s.msgLen.toNat ≤ nBytes s - 1 → messageLegal s →
      s.msgLen.toNat = 0 ∨ 8 * (s.msgLen.toNat + 1) ≤ s.grid.w.toNat * s.grid.h.toNat →
      ∃ t, exec .hide s = .next t ∧ t.status.err = .none ∧ t.status.trunc = false) ∧
    ∀ (i : Instr) (t : State), exec i s = .next t → t.status.err = .capacityExceeded →
      s.strict = true ∧ (i = .embed ∨ i = .hide) ∧ t.grid = s.grid

/-! ## The commands: result and frame -/

/-- R62: `FENC`. -/
def Obligations.FencFramesTheMessage : Prop :=
  decode 0x00000001#32 = .ok .fenc ∧
  ∀ s : State, s.Inv →
    (nBytes s - 1 < s.msgLen.toNat → exec .fenc s = .next (raise .lengthError s.msgLen s)) ∧
    (s.msgLen.toNat ≤ nBytes s - 1 → ∀ i, lowestIllegal s i →
      exec .fenc s = .next (raise .encodingError (BitVec.ofNat 32 i) s)) ∧
    (s.msgLen.toNat ≤ nBytes s - 1 → messageLegal s →
      ∃ t, exec .fenc s = .next t ∧ framesMessage s t ∧
        t = { s with
          bit := t.bit, bitLen := t.bitLen, errInfo := 0,
          status := successStatus false false false s })

/-- R66: `FDEC`. -/
def Obligations.FdecDeframesTheBits : Prop :=
  decode 0x00000002#32 = .ok .fdec ∧
  ∀ s : State, s.Inv →
    (8 * nBytes s < s.bitLen.toNat → exec .fdec s = .next (raise .lengthError s.bitLen s)) ∧
    (s.bitLen.toNat ≤ 8 * nBytes s →
      ∃ t, exec .fdec s = .next t ∧ holdsMessage (deframe (s.bit.take s.bitLen.toNat)).1 s t ∧
        t = { s with
          msg := t.msg, msgLen := t.msgLen, errInfo := 0,
          status := successStatus ((deframe (s.bit.take s.bitLen.toNat)).2) false false s })

/-- R68, R69: `EMBED`. -/
def Obligations.EmbedWritesTheLowBlueBits : Prop :=
  decode 0x00000003#32 = .ok .embed ∧
  ∀ s : State, s.Inv →
    (8 * nBytes s < s.bitLen.toNat → exec .embed s = .next (raise .lengthError s.bitLen s)) ∧
    (s.bitLen.toNat ≤ 8 * nBytes s → s.strict = true → s.grid.w.toNat * s.grid.h.toNat < s.bitLen.toNat →
      exec .embed s = .next (raise .capacityExceeded s.bitLen s)) ∧
    (s.bitLen.toNat ≤ 8 * nBytes s → (s.strict = true → s.bitLen.toNat ≤ s.grid.w.toNat * s.grid.h.toNat) →
      ∃ t, exec .embed s = .next t ∧
        gridEmbeds (bitAt s) (min s.bitLen.toNat (s.grid.w.toNat * s.grid.h.toNat)) s.grid t.grid ∧
        t = { s with
          grid := t.grid, errInfo := 0,
          status := successStatus false (decide (s.grid.w.toNat * s.grid.h.toNat < s.bitLen.toNat)) false s })

/-- R70: `EXTRACT`. -/
def Obligations.ExtractReadsEveryPixel : Prop :=
  decode 0x00000004#32 = .ok .extract ∧
  ∀ s : State, s.Inv →
    (8 * nBytes s < s.grid.w.toNat * s.grid.h.toNat →
      exec .extract s = .next (raise .lengthError (BitVec.ofNat 32 (s.grid.w.toNat * s.grid.h.toNat)) s)) ∧
    (s.grid.w.toNat * s.grid.h.toNat ≤ 8 * nBytes s →
      ∃ t, exec .extract s = .next t ∧ holdsGridBits s t ∧
        t = { s with
          bit := t.bit, bitLen := t.bitLen, errInfo := 0,
          status := successStatus false false false s })

/-- R72: `HIDE`. -/
def Obligations.HideFramesThenEmbeds : Prop :=
  decode 0x00000005#32 = .ok .hide ∧
  ∀ s : State, s.Inv →
    (nBytes s - 1 < s.msgLen.toNat → exec .hide s = .next (raise .lengthError s.msgLen s)) ∧
    (s.msgLen.toNat ≤ nBytes s - 1 → ∀ i, lowestIllegal s i →
      exec .hide s = .next (raise .encodingError (BitVec.ofNat 32 i) s)) ∧
    (s.msgLen.toNat ≤ nBytes s - 1 → messageLegal s → s.strict = true → 0 < s.msgLen.toNat →
      s.grid.w.toNat * s.grid.h.toNat < 8 * (s.msgLen.toNat + 1) →
      exec .hide s = .next (raise .capacityExceeded (BitVec.ofNat 32 (8 * (s.msgLen.toNat + 1))) s)) ∧
    (s.msgLen.toNat ≤ nBytes s - 1 → messageLegal s →
      (s.strict = true → 0 < s.msgLen.toNat → 8 * (s.msgLen.toNat + 1) ≤ s.grid.w.toNat * s.grid.h.toNat) →
      ∃ t, exec .hide s = .next t ∧ framesMessage s t ∧
        gridEmbeds (bitAt t) (min t.bitLen.toNat (s.grid.w.toNat * s.grid.h.toNat)) s.grid t.grid ∧
        t = { s with
          bit := t.bit, bitLen := t.bitLen, grid := t.grid, errInfo := 0,
          status := successStatus false (decide (s.grid.w.toNat * s.grid.h.toNat < t.bitLen.toNat)) false s })

/-- R74: `REVEAL`. -/
def Obligations.RevealExtractsThenDeframes : Prop :=
  decode 0x00000006#32 = .ok .reveal ∧
  ∀ s : State, s.Inv →
    (8 * nBytes s < s.grid.w.toNat * s.grid.h.toNat →
      exec .reveal s = .next (raise .lengthError (BitVec.ofNat 32 (s.grid.w.toNat * s.grid.h.toNat)) s)) ∧
    (s.grid.w.toNat * s.grid.h.toNat ≤ 8 * nBytes s →
      ∃ t, exec .reveal s = .next t ∧ holdsGridBits s t ∧
        holdsMessage (deframe (t.bit.take t.bitLen.toNat)).1 s t ∧
        t = { s with
          bit := t.bit, bitLen := t.bitLen, msg := t.msg, msgLen := t.msgLen, errInfo := 0,
          status := successStatus ((deframe (t.bit.take t.bitLen.toNat)).2) false false s })

/-- R76: `CAPCHECK`. Its last clause: `FITS` is 1 exactly when a `HIDE` that follows in strict mode raises no
`CAPACITY_EXCEEDED`, the code words being legal. -/
def Obligations.CapcheckComparesRequiredWithAvailable : Prop :=
  decode 0x00000007#32 = .ok .capcheck ∧
  ∀ s : State,
    (nBytes s - 1 < s.msgLen.toNat → exec .capcheck s = .next (raise .lengthError s.msgLen s)) ∧
    (s.msgLen.toNat ≤ nBytes s - 1 →
      ∃ t, exec .capcheck s = .next t ∧
        t.reqPix.toNat = (if s.msgLen.toNat = 0 then 0 else 8 * (s.msgLen.toNat + 1)) ∧
        t = { s with
          reqPix := t.reqPix, errInfo := 0,
          status := successStatus false false (decide (t.reqPix.toNat ≤ s.grid.w.toNat * s.grid.h.toNat)) s }) ∧
    (∀ t u : State, s.Inv → s.msgLen.toNat ≤ nBytes s - 1 → messageLegal s →
      exec .capcheck s = .next t → exec .hide { t with strict := true } = .next u →
      (t.status.fits = true ↔ u.status.err ≠ .capacityExceeded))

/-! ## The framer's and the embedder's functions -/

/-- R55, R56: most significant bit first both ways; the byte of a value's bits is the value. -/
def Obligations.ByteAndBitsAreInverse : Prop :=
  (∀ (v : Byte) (j : Nat), j < 8 → (byteToBits v)[j]? = some (v.getLsbD (7 - j))) ∧
  (∀ b7 b6 b5 b4 b3 b2 b1 b0 : Bool,
    (bitsToByte [b7, b6, b5, b4, b3, b2, b1, b0]).toNat =
      128 * b7.toNat + 64 * b6.toNat + 32 * b5.toNat + 16 * b4.toNat + 8 * b3.toNat + 4 * b2.toNat + 2 * b1.toNat +
        b0.toNat) ∧
  ∀ v : Byte, (byteToBits v).length = 8 ∧ bitsToByte (byteToBits v) = v

/-- R57, R58: the frame of a message, bit by bit, and its length. -/
def Obligations.FrameBitsAndLength : Prop :=
  ∀ m : List Byte,
    (frame m).length = (if m.length = 0 then 0 else 8 * (m.length + 1)) ∧ (frame m).length % 8 = 0 ∧
    (∀ (i j : Nat) (c : Byte), m[i]? = some c → j < 8 → (frame m)[8 * i + j]? = some (c.getLsbD (7 - j))) ∧
    (0 < m.length → (frame m).drop (8 * m.length) = List.replicate 8 false)

/-- R59, R60, R61: what `deframe` returns, for every bit list: character `k` is the value of group `k` and is not 0; the
flag is 1 exactly when the next whole group is zero, and 0 exactly when every whole group is a character; the bits after
the last whole group are never read, and a list shorter than 8 bits gives the empty message and flag 0. -/
def Obligations.DeframeReadsGroupsToTheTerminator : Prop :=
  ∀ s : List Bool,
    (∀ (k : Nat) (c : Byte), (deframe s).1[k]? = some c → c ≠ 0 ∧ ((s.drop (8 * k)).take 8) = byteToBits c) ∧
    ((deframe s).2 = false ↔ (deframe s).1.length = s.length / 8) ∧
    ((deframe s).2 = true ↔
      (deframe s).1.length < s.length / 8 ∧ (s.drop (8 * (deframe s).1.length)).take 8 = List.replicate 8 false) ∧
    (∀ more : List Bool, s.length % 8 = 0 → more.length < 8 → deframe (s ++ more) = deframe s) ∧
    (s.length < 8 → deframe s = ([], false)) ∧
    ((∀ k < s.length / 8, (s.drop (8 * k)).take 8 ≠ List.replicate 8 false) →
      (deframe s).1.length = s.length / 8 ∧ (deframe s).2 = false)

/-- R65: no decoded message is longer than the number of whole groups, and it is that long exactly when the flag is 0;
when the flag is 1 it holds the groups before the first zero group; a message of non-zero characters comes back from its
frame, whatever bits follow. -/
def Obligations.DeframeInvertsFrame : Prop :=
  (∀ s : List Bool, (deframe s).1.length ≤ s.length / 8 ∧
    ((deframe s).1.length = s.length / 8 ↔ (deframe s).2 = false) ∧
    ((deframe s).2 = true →
      (∀ (k : Nat) (c : Byte), (deframe s).1[k]? = some c → c ≠ 0 ∧ (s.drop (8 * k)).take 8 = byteToBits c) ∧
      (s.drop (8 * (deframe s).1.length)).take 8 = List.replicate 8 false)) ∧
  ∀ (m : List Byte) (more : List Bool), 0 < m.length → (∀ c ∈ m, c ≠ 0) → deframe (frame m ++ more) = (m, true)

/-- R63: a character 0 is framed like any other, and on decode it is read as the terminator: what follows it is lost. -/
def Obligations.NulCharacterEndsTheMessage : Prop :=
  ∀ (a b : List Byte), (∀ c ∈ a, c ≠ 0) →
    (frame (a ++ 0 :: b)).length = 8 * (a.length + b.length + 2) ∧ deframe (frame (a ++ 0 :: b)) = (a, true)

/-- R67: raster index and coordinates are each other's inverse, column-major, on every grid. -/
def Obligations.RasterOrderIsColumnMajor : Prop :=
  ∀ w h : Nat,
    (∀ k < w * h, (raster h k).1 < w ∧ (raster h k).2 < h ∧
      rasterIndex h (raster h k).1 (raster h k).2 = k ∧ raster h k = (k / h, k % h)) ∧
    (∀ x < w, ∀ y < h, rasterIndex h x y < w * h ∧ raster h (rasterIndex h x y) = (x, y) ∧
      rasterIndex h x y = x * h + y)

/-! ## Laws over several commands -/

/-- R71: `EXTRACT` after an `EMBED` that fitted gives back the embedded bits, and the grid's former low bits beyond
them. -/
def Obligations.ExtractAfterEmbedGivesTheBits : Prop :=
  ∀ s : State, s.Inv → s.bitLen.toNat ≤ s.grid.w.toNat * s.grid.h.toNat →
    s.grid.w.toNat * s.grid.h.toNat ≤ 8 * nBytes s →
    ∃ t u, exec .embed s = .next t ∧ exec .extract t = .next u ∧ t.status.err = .none ∧ u.status.err = .none ∧
      u.bitLen.toNat = s.grid.w.toNat * s.grid.h.toNat ∧
      (∀ k < s.bitLen.toNat, u.bit[k]? = some (bitAt s k)) ∧
      ∀ k, s.bitLen.toNat ≤ k → k < s.grid.w.toNat * s.grid.h.toNat → u.bit[k]? = some (lowBitAt s.grid k)

/-- R73, read as log 18 says: a `HIDE` that completes is `FENC` followed by `EMBED`; one refused for capacity leaves `BIT[]`
and `BIT_LEN`, the pair having written them. R73 excepts `STATUS` history from the equality; that the end states are equal
with `STATUS` included is the model's reading (log 18). -/
def Obligations.HideIsFencThenEmbed : Prop :=
  ∀ s t : State, s.Inv → exec .hide s = .next t →
    (t.status.err = .none → ∃ u, exec .fenc s = .next u ∧ exec .embed u = .next t) ∧
    (t.status.err = .capacityExceeded → t.bit = s.bit ∧ t.bitLen = s.bitLen ∧
      ∃ u, exec .fenc s = .next u ∧ u.status.err = .none ∧ framesMessage s u)

/-- R75, read as log 15 says: where `EXTRACT` completes, `REVEAL` is `EXTRACT` followed by `FDEC`; where `EXTRACT`
raises, `REVEAL` raises the same error with the same value. -/
def Obligations.RevealIsExtractThenFdec : Prop :=
  ∀ s u : State, exec .extract s = .next u →
    (u.status.err = .none → exec .reveal s = exec .fdec u) ∧
    (u.status.err ≠ .none → exec .reveal s = .next u)

/-- R77: a message of non-zero characters, held as `LDMSG` leaves it, that fits the grid and a grid that fits `BIT[]`:
`HIDE` then `REVEAL` gives the message back, in either capacity mode. -/
def Obligations.HideThenRevealRoundTrip : Prop :=
  ∀ (s : State) (m : List Byte), s.Inv → 1 ≤ m.length → m.length ≤ nBytes s - 1 → (∀ c ∈ m, c ≠ 0) →
    s.msgLen.toNat = m.length → (∀ i < m.length, s.msg[i]? = m[i]?.map (BitVec.setWidth 32)) →
    8 * (m.length + 1) ≤ s.grid.w.toNat * s.grid.h.toNat → s.grid.w.toNat * s.grid.h.toNat ≤ 8 * nBytes s →
    ∃ t u, exec .hide s = .next t ∧ exec .reveal t = .next u ∧
      u.msgLen.toNat = m.length ∧ (∀ i < m.length, u.msg[i]? = m[i]?.map (BitVec.setWidth 32)) ∧
      u.status.err = .none ∧ u.status.term = true

/-- R78: with `MSG_LEN = 0` `HIDE` leaves the grid as it is, sets `BIT_LEN` to 0 and raises nothing in either capacity
mode; a `REVEAL` afterwards, where the grid fits `BIT[]`, reads the grid's own low bits. -/
def Obligations.EmptyMessageLeavesTheGrid : Prop :=
  ∀ s : State, s.Inv → s.msgLen = 0 →
    ∃ t, exec .hide s = .next t ∧ t.grid = s.grid ∧ t.bitLen = 0 ∧ t.bit = s.bit ∧ t.status.err = .none ∧
      t.status.trunc = false ∧
      (s.grid.w.toNat * s.grid.h.toNat ≤ 8 * nBytes s → ∃ u, exec .reveal t = .next u ∧ holdsGridBits s u)

/-- R79: with `STRICT = 0` a message that needs more bits than the grid has pixels: every pixel gets its framed bit,
`TRUNC` is set, and the whole frame remains in `BIT[]`. -/
def Obligations.OverflowEmbedsThePrefix : Prop :=
  ∀ s : State, s.Inv → s.strict = false → s.msgLen.toNat ≤ nBytes s - 1 → messageLegal s → 0 < s.msgLen.toNat →
    s.grid.w.toNat * s.grid.h.toNat < 8 * (s.msgLen.toNat + 1) →
    ∃ t, exec .hide s = .next t ∧ t.status.trunc = true ∧ t.status.err = .none ∧ framesMessage s t ∧
      gridEmbeds (bitAt t) (s.grid.w.toNat * s.grid.h.toNat) s.grid t.grid ∧
      ∀ k < s.grid.w.toNat * s.grid.h.toNat, lowBitAt t.grid k = bitAt t k

/-- R80: `REVEAL` on a grid with no zero group decodes every whole group and raises nothing; on a grid whose every blue
value is even it gives the empty message, with `TERM` set exactly when there is a whole group. -/
def Obligations.RevealOnGridsNeverWritten : Prop :=
  ∀ s : State, s.Inv → s.grid.w.toNat * s.grid.h.toNat ≤ 8 * nBytes s →
    ((∀ k < s.grid.w.toNat * s.grid.h.toNat / 8, ∃ j < 8, lowBitAt s.grid (8 * k + j) = true) →
      ∃ t, exec .reveal s = .next t ∧ t.msgLen.toNat = s.grid.w.toNat * s.grid.h.toNat / 8 ∧
        t.status.term = false ∧ t.status.err = .none) ∧
    ((∀ k < s.grid.w.toNat * s.grid.h.toNat, lowBitAt s.grid k = false) →
      ∃ t, exec .reveal s = .next t ∧ t.msgLen = 0 ∧ t.status.err = .none ∧
        t.status.term = decide (8 ≤ s.grid.w.toNat * s.grid.h.toNat))

/-! ## Rules over every step -/

/-- Every step keeps a legal state legal (R7, R17, R21, R22, R25, R88, R89). That part of the invariant which says the attached
grid and the kept copies are canonical cell lists is the model's choice: the form is log 4's, the copies are log 10's; the
rule behind it, that a grid holds the channels of its own pixels only, is R29. -/
def Obligations.EveryStepKeepsTheStateLegal : Prop :=
  ∀ s t : State, s.Inv → step s = .next t → t.Inv

/-- Every step keeps the grid memory in its canonical form, whatever else holds of the state. The form is the model's choice
(log 4), and so are the kept copies (log 10). -/
def Obligations.EveryStepKeepsMemoryCanonical : Prop :=
  ∀ s t : State, gridsCanonical s → step s = .next t → gridsCanonical t

/-- R29, R38, R81: whatever command runs, in whatever state, and however it ends, no byte of the grid changes but blue
bytes of its pixels, and of those only the lowest bit; only `EMBED` and `HIDE` change any. -/
def Obligations.CommandsTouchOnlyLowBlueBits : Prop :=
  ∀ (s t : State) (i : Instr), s.Inv → exec i s = .next t →
    t.grid.w = s.grid.w ∧ t.grid.h = s.grid.h ∧
    (∀ a, (∀ x < s.grid.w.toNat, ∀ y < s.grid.h.toNat, a ≠ pixKey x y .blue) →
      readCell t.grid.cells a = readCell s.grid.cells a) ∧
    (∀ x < s.grid.w.toNat, ∀ y < s.grid.h.toNat,
      t.grid.channel x y .blue &&& 0xFE#8 = s.grid.channel x y .blue &&& 0xFE#8) ∧
    (i ≠ .embed → i ≠ .hide → t.grid = s.grid)

/-- R38, R47: the attached grid changes only at a write of the `EMBED` or `HIDE` word to `CMD`, or when the host attaches
a grid or a kept copy (the copies are the model's choice, log 10). -/
def Obligations.OnlyEmbedHideAndAttachChangeTheGrid : Prop :=
  ∀ s t : State, step s = .next t → t.grid ≠ s.grid →
    s.prog[s.hpc]? = some (.wr 0x3#32 0x00000003#32) ∨ s.prog[s.hpc]? = some (.wr 0x3#32 0x00000005#32) ∨
    (∃ w h cells, s.prog[s.hpc]? = some (.attach w h cells)) ∨ ∃ k, s.prog[s.hpc]? = some (.attachCopy k)

/-- R21, R102: entry `i` of `MSG[]` keeps its value until a host write of that entry, an `FDEC` or a `REVEAL`, or a
reset. -/
def Obligations.MessageEntriesAreStable : Prop :=
  ∀ (s t : State) (i : Nat), step s = .next t → t.msg[i]? ≠ s.msg[i]? →
    (∃ a v, s.prog[s.hpc]? = some (.wr a v) ∧ i < nBytes s ∧ a.toNat = 0x01000000 + i) ∨
    s.prog[s.hpc]? = some (.wr 0x3#32 0x00000002#32) ∨ s.prog[s.hpc]? = some (.wr 0x3#32 0x00000006#32) ∨
    s.prog[s.hpc]? = some .reset

/-- R22, R102: entry `j` of `BIT[]` keeps its value until a host write of that entry, a `FENC`, `EXTRACT`, `HIDE` or
`REVEAL`, or a reset. -/
def Obligations.BitEntriesAreStable : Prop :=
  ∀ (s t : State) (j : Nat), step s = .next t → t.bit[j]? ≠ s.bit[j]? →
    (∃ a v, s.prog[s.hpc]? = some (.wr a v) ∧ j < 8 * nBytes s ∧ a.toNat = 0x08000000 + j) ∨
    (∃ w ∈ [0x00000001#32, 0x00000004#32, 0x00000005#32, 0x00000006#32], s.prog[s.hpc]? = some (.wr 0x3#32 w)) ∨
    s.prog[s.hpc]? = some .reset

/-- R17, R91: once set, `STICKY` stays set until the host writes `STATUS` with bit 16 set, or reset. -/
def Obligations.StickyStaysUntilCleared : Prop :=
  ∀ s t : State, s.status.sticky = true → step s = .next t → t.status.sticky = false →
    (∃ v : Word, v.getLsbD 16 = true ∧ s.prog[s.hpc]? = some (.wr 0x4#32 v)) ∨ s.prog[s.hpc]? = some .reset

/-- R15, R17 to R20, R25, R26: no step changes the parameters, and a register changes only at a reset or by its writers: a
host write to `CTRL` for `STRICT`; `CAPCHECK` for `REQ_PIX`; a host write of it, `FDEC` or `REVEAL` for `MSG_LEN`; a host
write of it, `FENC`, `EXTRACT`, `HIDE` or `REVEAL` for `BIT_LEN`; a write to `CMD` for `ERR_INFO`, `ERR`, `TERM`, `TRUNC`
and `FITS`; a write to `CMD` or `STATUS` for `STICKY`. -/
def Obligations.RegistersChangeOnlyByTheirWriters : Prop :=
  ∀ s t : State, step s = .next t →
    t.cfg = s.cfg ∧
    (t.strict ≠ s.strict → (∃ v, s.prog[s.hpc]? = some (.wr 0x2#32 v)) ∨ s.prog[s.hpc]? = some .reset) ∧
    (t.reqPix ≠ s.reqPix →
      s.prog[s.hpc]? = some (.wr 0x3#32 0x00000007#32) ∨ s.prog[s.hpc]? = some .reset) ∧
    (t.msgLen ≠ s.msgLen →
      (∃ v, s.prog[s.hpc]? = some (.wr 0x6#32 v)) ∨ s.prog[s.hpc]? = some (.wr 0x3#32 0x00000002#32) ∨
      s.prog[s.hpc]? = some (.wr 0x3#32 0x00000006#32) ∨ s.prog[s.hpc]? = some .reset) ∧
    (t.bitLen ≠ s.bitLen →
      (∃ v, s.prog[s.hpc]? = some (.wr 0x7#32 v)) ∨
      (∃ w ∈ [0x00000001#32, 0x00000004#32, 0x00000005#32, 0x00000006#32], s.prog[s.hpc]? = some (.wr 0x3#32 w)) ∨
      s.prog[s.hpc]? = some .reset) ∧
    (t.errInfo ≠ s.errInfo ∨ t.status.err ≠ s.status.err ∨ t.status.term ≠ s.status.term ∨
        t.status.trunc ≠ s.status.trunc ∨ t.status.fits ≠ s.status.fits →
      (∃ w, s.prog[s.hpc]? = some (.wr 0x3#32 w)) ∨ s.prog[s.hpc]? = some .reset) ∧
    (t.status.sticky ≠ s.status.sticky →
      (∃ w, s.prog[s.hpc]? = some (.wr 0x3#32 w)) ∨ (∃ v, s.prog[s.hpc]? = some (.wr 0x4#32 v)) ∨
      s.prog[s.hpc]? = some .reset)
end

