-- ==== Sys2Proof/Laws/Memory.lean ====
section
/-! SUPPORT. Byte memory: a read after a write, the canonical form, the addresses of channels, the grid operations. -/

namespace Sys2Proof.Machine

theorem readCell_writeCell_same (cells : List Host.Cell) (a : Nat) (v : Byte)
    (h : cells.Pairwise (fun p q => p.1 < q.1)) : readCell (writeCell cells a v) a = v := by
  have absent : ∀ rest : List Host.Cell, (∀ q ∈ rest, a < q.1) → readCell rest a = unlistedByte := by
    intro rest
    induction rest with
    | nil => intro _; rfl
    | cons q rest ih =>
      intro hq
      have := hq q (by simp)
      simp only [readCell]
      rw [if_neg (by omega)]
      exact ih fun r hr => hq r (by simp [hr])
  induction cells with
  | nil => by_cases hv : v = unlistedByte <;> simp [writeCell, readCell, hv]
  | cons p rest ih =>
    obtain ⟨k, u⟩ := p
    obtain ⟨hk, hrest⟩ := List.pairwise_cons.mp h
    simp only [writeCell]
    split
    · split
      · rename_i hlt hv
        rw [hv]
        refine absent _ fun q hq => ?_
        rcases List.mem_cons.mp hq with rfl | hq
        · exact hlt
        · have := hk q hq; simp only at this; omega
      · simp [readCell]
    · split
      · split
        · rename_i heq hv
          subst heq
          rw [hv]
          exact absent _ hk
        · simp [readCell]
      · rename_i hne
        simp only [readCell]
        rw [if_neg (Ne.symm hne)]
        exact ih hrest

theorem readCell_writeCell_other (cells : List Host.Cell) (a b : Nat) (v : Byte) (h : b ≠ a) :
    readCell (writeCell cells a v) b = readCell cells b := by
  induction cells with
  | nil => by_cases hv : v = unlistedByte <;> simp [writeCell, readCell, hv, h.symm]
  | cons p rest ih =>
    obtain ⟨k, u⟩ := p
    simp only [writeCell]
    split
    · split <;> simp [readCell, h.symm]
    · split
      · rename_i heq
        subst heq
        split <;> simp [readCell, h.symm]
      · simp [readCell, ih]

/-- A cell of the result is a cell of the list or the one written. -/
theorem mem_writeCell {cells : List Host.Cell} {a : Nat} {v : Byte} {p : Host.Cell}
    (h : p ∈ writeCell cells a v) : p ∈ cells ∨ (p = (a, v) ∧ v ≠ unlistedByte) := by
  induction cells with
  | nil =>
    by_cases hv : v = unlistedByte
    · simp [writeCell, hv] at h
    · simp [writeCell, hv] at h; exact .inr ⟨h, hv⟩
  | cons q rest ih =>
    obtain ⟨k, u⟩ := q
    simp only [writeCell] at h
    split at h
    · split at h
      · exact .inl h
      · rename_i hv
        rcases List.mem_cons.mp h with rfl | h
        · exact .inr ⟨rfl, hv⟩
        · exact .inl h
    · split at h
      · split at h
        · exact .inl (by simp [h])
        · rename_i hv
          rcases List.mem_cons.mp h with rfl | h
          · exact .inr ⟨rfl, hv⟩
          · exact .inl (by simp [h])
      · rcases List.mem_cons.mp h with rfl | h
        · exact .inl (by simp)
        · rcases ih h with h | h
          · exact .inl (by simp [h])
          · exact .inr h

/-- A write keeps the canonical form. -/
theorem writeCell_canonical {cells : List Host.Cell} (a : Nat) (v : Byte) (h : cellsCanonical cells) :
    cellsCanonical (writeCell cells a v) := by
  refine ⟨?_, fun p hp => ?_⟩
  · obtain ⟨h, -⟩ := h
    induction cells with
    | nil => by_cases hv : v = unlistedByte <;> simp [writeCell, hv]
    | cons q rest ih =>
      obtain ⟨k, u⟩ := q
      obtain ⟨hk, hrest⟩ := List.pairwise_cons.mp h
      simp only [writeCell]
      split
      · split
        · exact h
        · rename_i hlt _
          refine List.pairwise_cons.mpr ⟨fun p hp => ?_, h⟩
          rcases List.mem_cons.mp hp with rfl | hp
          · exact hlt
          · have := hk p hp; simp only at this ⊢; omega
      · split
        · rename_i heq
          subst heq
          split
          · exact hrest
          · exact List.pairwise_cons.mpr ⟨hk, hrest⟩
        · rename_i hge hne
          refine List.pairwise_cons.mpr ⟨fun p hp => ?_, ih hrest⟩
          rcases mem_writeCell hp with hp | ⟨rfl, -⟩
          · exact hk p hp
          · simp only; omega
  · rcases mem_writeCell hp with hp | ⟨rfl, hv⟩
    · exact h.2 p hp
    · exact hv

/-- Distinct channels of pixels have distinct addresses, `y` being below 65536. -/
theorem pixKey_inj {x y x' y' : Nat} {c c' : Channel} (hy : y < 65536) (hy' : y' < 65536)
    (h : pixKey x y c = pixKey x' y' c') : x = x' ∧ y = y' ∧ c = c' := by
  have hc : ∀ d : Channel, channelOffset d < 4 := fun d => by cases d <;> decide
  have h1 := hc c
  have h2 := hc c'
  simp only [pixKey] at h
  have hoff : channelOffset c = channelOffset c' := by omega
  refine ⟨by omega, by omega, ?_⟩
  cases c <;> cases c' <;> simp_all [channelOffset]

/-- The address of a channel of a pixel of the grid lies in the grid. -/
theorem keyInGrid_pixKey (al : Bool) (g : Grid) {x y : Nat} (hx : x < g.w.toNat) (hy : y < g.h.toNat) :
    keyInGrid al g.w g.h (pixKey x y .blue) = true := by
  have hh := g.h.isLt
  have h1 : pixKey x y .blue / 4 / 65536 = x := by simp only [pixKey, channelOffset]; omega
  have h2 : pixKey x y .blue / 4 % 65536 = y := by simp only [pixKey, channelOffset]; omega
  have h3 : pixKey x y .blue % 4 ≠ 3 := by simp only [pixKey, channelOffset]; omega
  simp [keyInGrid, h1, h2, h3, hx, hy]

@[simp] theorem pixWriteBlue_w (g : Grid) (x y : Nat) (v : Byte) : (pixWriteBlue g x y v).w = g.w := by
  unfold pixWriteBlue; split <;> rfl

@[simp] theorem pixWriteBlue_h (g : Grid) (x y : Nat) (v : Byte) : (pixWriteBlue g x y v).h = g.h := by
  unfold pixWriteBlue; split <;> rfl

/-- Inside the grid `PixWriteBlue` sets that pixel's blue byte. -/
theorem pixWriteBlue_blue {al : Bool} {g : Grid} (hg : g.WellFormed al) {x y : Nat} (hx : x < g.w.toNat)
    (hy : y < g.h.toNat) (v : Byte) : (pixWriteBlue g x y v).channel x y .blue = v := by
  simp only [pixWriteBlue, inGrid, hx, hy, decide_true, Bool.and_self, if_true, Grid.channel]
  exact readCell_writeCell_same _ _ _ hg.1.1

/-- `PixWriteBlue` changes no other byte. -/
theorem pixWriteBlue_other (g : Grid) (x y : Nat) (v : Byte) {a : Nat} (ha : a ≠ pixKey x y .blue) :
    readCell (pixWriteBlue g x y v).cells a = readCell g.cells a := by
  unfold pixWriteBlue
  split
  · exact readCell_writeCell_other _ _ _ _ ha
  · rfl

theorem pixWriteBlue_wellFormed {al : Bool} {g : Grid} (hg : g.WellFormed al) (x y : Nat) (v : Byte) :
    (pixWriteBlue g x y v).WellFormed al := by
  unfold pixWriteBlue
  split
  · rename_i h
    simp only [inGrid, Bool.and_eq_true, decide_eq_true_eq] at h
    refine ⟨writeCell_canonical _ _ hg.1, fun p hp => ?_⟩
    rcases mem_writeCell hp with hp | ⟨rfl, -⟩
    · exact hg.2 p hp
    · exact keyInGrid_pixKey al g h.1 h.2
  · exact hg

theorem addCell_wellFormed {al : Bool} {g : Grid} (hg : g.WellFormed al) (p : Host.Cell) :
    (addCell al g p).WellFormed al := by
  unfold addCell
  split
  · rename_i h
    refine ⟨writeCell_canonical _ _ hg.1, fun q hq => ?_⟩
    rcases mem_writeCell hq with hq | ⟨rfl, -⟩
    · exact hg.2 q hq
    · exact h
  · exact hg

/-- Whatever list describes it, an attached grid is well formed. -/
theorem buildGrid_wellFormed (al : Bool) (w h : BitVec 16) (cells : List Host.Cell) :
    (buildGrid al w h cells).WellFormed al := by
  have step : ∀ (cs : List Host.Cell) (g : Grid), g.WellFormed al → (cs.foldl (addCell al) g).WellFormed al := by
    intro cs
    induction cs with
    | nil => intro g hg; exact hg
    | cons p rest ih => intro g hg; exact ih _ (addCell_wellFormed hg p)
  exact step cells _ ⟨⟨List.Pairwise.nil, by simp⟩, by simp⟩

@[simp] theorem addCell_w (al : Bool) (g : Grid) (p : Host.Cell) : (addCell al g p).w = g.w := by
  unfold addCell; split <;> rfl

@[simp] theorem addCell_h (al : Bool) (g : Grid) (p : Host.Cell) : (addCell al g p).h = g.h := by
  unfold addCell; split <;> rfl

end Sys2Proof.Machine
end

