-- ==== Sys2Proof/Laws/State.lean ====
section
/-! SUPPORT. What each named update of the state leaves in each field. -/

namespace Sys2Proof.Machine

@[simp] theorem raise_cfg (e : ErrCode) (info : Word) (s : State) : (raise e info s).cfg = s.cfg := rfl
@[simp] theorem raise_strict (e : ErrCode) (info : Word) (s : State) : (raise e info s).strict = s.strict := rfl
@[simp] theorem raise_status (e : ErrCode) (info : Word) (s : State) : (raise e info s).status = { err := e, term := false, trunc := false, fits := false, sticky := true } := rfl
@[simp] theorem raise_errInfo (e : ErrCode) (info : Word) (s : State) : (raise e info s).errInfo = info := rfl
@[simp] theorem raise_msgLen (e : ErrCode) (info : Word) (s : State) : (raise e info s).msgLen = s.msgLen := rfl
@[simp] theorem raise_bitLen (e : ErrCode) (info : Word) (s : State) : (raise e info s).bitLen = s.bitLen := rfl
@[simp] theorem raise_reqPix (e : ErrCode) (info : Word) (s : State) : (raise e info s).reqPix = s.reqPix := rfl
@[simp] theorem raise_msg (e : ErrCode) (info : Word) (s : State) : (raise e info s).msg = s.msg := rfl
@[simp] theorem raise_bit (e : ErrCode) (info : Word) (s : State) : (raise e info s).bit = s.bit := rfl
@[simp] theorem raise_grid (e : ErrCode) (info : Word) (s : State) : (raise e info s).grid = s.grid := rfl
@[simp] theorem raise_copies (e : ErrCode) (info : Word) (s : State) : (raise e info s).copies = s.copies := rfl
@[simp] theorem raise_prog (e : ErrCode) (info : Word) (s : State) : (raise e info s).prog = s.prog := rfl
@[simp] theorem raise_hpc (e : ErrCode) (info : Word) (s : State) : (raise e info s).hpc = s.hpc := rfl
@[simp] theorem raise_notes (e : ErrCode) (info : Word) (s : State) : (raise e info s).notes = s.notes := rfl
@[simp] theorem raise_draws (e : ErrCode) (info : Word) (s : State) : (raise e info s).draws = s.draws := rfl

@[simp] theorem complete_cfg (t u f : Bool) (s : State) : (complete t u f s).cfg = s.cfg := rfl
@[simp] theorem complete_strict (t u f : Bool) (s : State) : (complete t u f s).strict = s.strict := rfl
@[simp] theorem complete_status (t u f : Bool) (s : State) : (complete t u f s).status = { err := .none, term := t, trunc := u, fits := f, sticky := s.status.sticky } := rfl
@[simp] theorem complete_errInfo (t u f : Bool) (s : State) : (complete t u f s).errInfo = 0 := rfl
@[simp] theorem complete_msgLen (t u f : Bool) (s : State) : (complete t u f s).msgLen = s.msgLen := rfl
@[simp] theorem complete_bitLen (t u f : Bool) (s : State) : (complete t u f s).bitLen = s.bitLen := rfl
@[simp] theorem complete_reqPix (t u f : Bool) (s : State) : (complete t u f s).reqPix = s.reqPix := rfl
@[simp] theorem complete_msg (t u f : Bool) (s : State) : (complete t u f s).msg = s.msg := rfl
@[simp] theorem complete_bit (t u f : Bool) (s : State) : (complete t u f s).bit = s.bit := rfl
@[simp] theorem complete_grid (t u f : Bool) (s : State) : (complete t u f s).grid = s.grid := rfl
@[simp] theorem complete_copies (t u f : Bool) (s : State) : (complete t u f s).copies = s.copies := rfl
@[simp] theorem complete_prog (t u f : Bool) (s : State) : (complete t u f s).prog = s.prog := rfl
@[simp] theorem complete_hpc (t u f : Bool) (s : State) : (complete t u f s).hpc = s.hpc := rfl
@[simp] theorem complete_notes (t u f : Bool) (s : State) : (complete t u f s).notes = s.notes := rfl
@[simp] theorem complete_draws (t u f : Bool) (s : State) : (complete t u f s).draws = s.draws := rfl

@[simp] theorem clearSticky_cfg (s : State) : (clearSticky s).cfg = s.cfg := rfl
@[simp] theorem clearSticky_strict (s : State) : (clearSticky s).strict = s.strict := rfl
@[simp] theorem clearSticky_status (s : State) : (clearSticky s).status = { s.status with sticky := false } := rfl
@[simp] theorem clearSticky_errInfo (s : State) : (clearSticky s).errInfo = s.errInfo := rfl
@[simp] theorem clearSticky_msgLen (s : State) : (clearSticky s).msgLen = s.msgLen := rfl
@[simp] theorem clearSticky_bitLen (s : State) : (clearSticky s).bitLen = s.bitLen := rfl
@[simp] theorem clearSticky_reqPix (s : State) : (clearSticky s).reqPix = s.reqPix := rfl
@[simp] theorem clearSticky_msg (s : State) : (clearSticky s).msg = s.msg := rfl
@[simp] theorem clearSticky_bit (s : State) : (clearSticky s).bit = s.bit := rfl
@[simp] theorem clearSticky_grid (s : State) : (clearSticky s).grid = s.grid := rfl
@[simp] theorem clearSticky_copies (s : State) : (clearSticky s).copies = s.copies := rfl
@[simp] theorem clearSticky_prog (s : State) : (clearSticky s).prog = s.prog := rfl
@[simp] theorem clearSticky_hpc (s : State) : (clearSticky s).hpc = s.hpc := rfl
@[simp] theorem clearSticky_notes (s : State) : (clearSticky s).notes = s.notes := rfl
@[simp] theorem clearSticky_draws (s : State) : (clearSticky s).draws = s.draws := rfl

@[simp] theorem writeBits_cfg (l : List Bool) (s : State) : (writeBits l s).cfg = s.cfg := rfl
@[simp] theorem writeBits_strict (l : List Bool) (s : State) : (writeBits l s).strict = s.strict := rfl
@[simp] theorem writeBits_status (l : List Bool) (s : State) : (writeBits l s).status = s.status := rfl
@[simp] theorem writeBits_errInfo (l : List Bool) (s : State) : (writeBits l s).errInfo = s.errInfo := rfl
@[simp] theorem writeBits_msgLen (l : List Bool) (s : State) : (writeBits l s).msgLen = s.msgLen := rfl
@[simp] theorem writeBits_bitLen (l : List Bool) (s : State) : (writeBits l s).bitLen = BitVec.ofNat 32 l.length := rfl
@[simp] theorem writeBits_reqPix (l : List Bool) (s : State) : (writeBits l s).reqPix = s.reqPix := rfl
@[simp] theorem writeBits_msg (l : List Bool) (s : State) : (writeBits l s).msg = s.msg := rfl
@[simp] theorem writeBits_bit (l : List Bool) (s : State) : (writeBits l s).bit = overwrite l s.bit := rfl
@[simp] theorem writeBits_grid (l : List Bool) (s : State) : (writeBits l s).grid = s.grid := rfl
@[simp] theorem writeBits_copies (l : List Bool) (s : State) : (writeBits l s).copies = s.copies := rfl
@[simp] theorem writeBits_prog (l : List Bool) (s : State) : (writeBits l s).prog = s.prog := rfl
@[simp] theorem writeBits_hpc (l : List Bool) (s : State) : (writeBits l s).hpc = s.hpc := rfl
@[simp] theorem writeBits_notes (l : List Bool) (s : State) : (writeBits l s).notes = s.notes := rfl
@[simp] theorem writeBits_draws (l : List Bool) (s : State) : (writeBits l s).draws = s.draws := rfl

@[simp] theorem writeMessage_cfg (m : List Byte) (s : State) : (writeMessage m s).cfg = s.cfg := rfl
@[simp] theorem writeMessage_strict (m : List Byte) (s : State) : (writeMessage m s).strict = s.strict := rfl
@[simp] theorem writeMessage_status (m : List Byte) (s : State) : (writeMessage m s).status = s.status := rfl
@[simp] theorem writeMessage_errInfo (m : List Byte) (s : State) : (writeMessage m s).errInfo = s.errInfo := rfl
@[simp] theorem writeMessage_msgLen (m : List Byte) (s : State) : (writeMessage m s).msgLen = BitVec.ofNat 32 m.length := rfl
@[simp] theorem writeMessage_bitLen (m : List Byte) (s : State) : (writeMessage m s).bitLen = s.bitLen := rfl
@[simp] theorem writeMessage_reqPix (m : List Byte) (s : State) : (writeMessage m s).reqPix = s.reqPix := rfl
@[simp] theorem writeMessage_msg (m : List Byte) (s : State) : (writeMessage m s).msg = overwrite (m.map (BitVec.setWidth 32)) s.msg := rfl
@[simp] theorem writeMessage_bit (m : List Byte) (s : State) : (writeMessage m s).bit = s.bit := rfl
@[simp] theorem writeMessage_grid (m : List Byte) (s : State) : (writeMessage m s).grid = s.grid := rfl
@[simp] theorem writeMessage_copies (m : List Byte) (s : State) : (writeMessage m s).copies = s.copies := rfl
@[simp] theorem writeMessage_prog (m : List Byte) (s : State) : (writeMessage m s).prog = s.prog := rfl
@[simp] theorem writeMessage_hpc (m : List Byte) (s : State) : (writeMessage m s).hpc = s.hpc := rfl
@[simp] theorem writeMessage_notes (m : List Byte) (s : State) : (writeMessage m s).notes = s.notes := rfl
@[simp] theorem writeMessage_draws (m : List Byte) (s : State) : (writeMessage m s).draws = s.draws := rfl

@[simp] theorem embedBits_cfg (l : List Bool) (s : State) : (embedBits l s).cfg = s.cfg := rfl
@[simp] theorem embedBits_strict (l : List Bool) (s : State) : (embedBits l s).strict = s.strict := rfl
@[simp] theorem embedBits_status (l : List Bool) (s : State) : (embedBits l s).status = s.status := rfl
@[simp] theorem embedBits_errInfo (l : List Bool) (s : State) : (embedBits l s).errInfo = s.errInfo := rfl
@[simp] theorem embedBits_msgLen (l : List Bool) (s : State) : (embedBits l s).msgLen = s.msgLen := rfl
@[simp] theorem embedBits_bitLen (l : List Bool) (s : State) : (embedBits l s).bitLen = s.bitLen := rfl
@[simp] theorem embedBits_reqPix (l : List Bool) (s : State) : (embedBits l s).reqPix = s.reqPix := rfl
@[simp] theorem embedBits_msg (l : List Bool) (s : State) : (embedBits l s).msg = s.msg := rfl
@[simp] theorem embedBits_bit (l : List Bool) (s : State) : (embedBits l s).bit = s.bit := rfl
@[simp] theorem embedBits_grid (l : List Bool) (s : State) : (embedBits l s).grid = embedFrom s.cfg.hasAlpha 0 l s.grid := rfl
@[simp] theorem embedBits_copies (l : List Bool) (s : State) : (embedBits l s).copies = s.copies := rfl
@[simp] theorem embedBits_prog (l : List Bool) (s : State) : (embedBits l s).prog = s.prog := rfl
@[simp] theorem embedBits_hpc (l : List Bool) (s : State) : (embedBits l s).hpc = s.hpc := rfl
@[simp] theorem embedBits_notes (l : List Bool) (s : State) : (embedBits l s).notes = s.notes := rfl
@[simp] theorem embedBits_draws (l : List Bool) (s : State) : (embedBits l s).draws = s.draws := rfl

@[simp] theorem resetBlock_cfg (s : State) : (resetBlock s).cfg = s.cfg := rfl
@[simp] theorem resetBlock_strict (s : State) : (resetBlock s).strict = false := rfl
@[simp] theorem resetBlock_status (s : State) : (resetBlock s).status = Status.reset := rfl
@[simp] theorem resetBlock_errInfo (s : State) : (resetBlock s).errInfo = 0 := rfl
@[simp] theorem resetBlock_msgLen (s : State) : (resetBlock s).msgLen = 0 := rfl
@[simp] theorem resetBlock_bitLen (s : State) : (resetBlock s).bitLen = 0 := rfl
@[simp] theorem resetBlock_reqPix (s : State) : (resetBlock s).reqPix = 0 := rfl
@[simp] theorem resetBlock_msg (s : State) : (resetBlock s).msg = drawMsg s.cfg s.draws := rfl
@[simp] theorem resetBlock_bit (s : State) : (resetBlock s).bit = drawBit s.cfg s.draws := rfl
@[simp] theorem resetBlock_grid (s : State) : (resetBlock s).grid = s.grid := rfl
@[simp] theorem resetBlock_copies (s : State) : (resetBlock s).copies = s.copies := rfl
@[simp] theorem resetBlock_prog (s : State) : (resetBlock s).prog = s.prog := rfl
@[simp] theorem resetBlock_hpc (s : State) : (resetBlock s).hpc = s.hpc := rfl
@[simp] theorem resetBlock_notes (s : State) : (resetBlock s).notes = s.notes := rfl
@[simp] theorem resetBlock_draws (s : State) : (resetBlock s).draws = s.draws + 1 := rfl

@[simp] theorem goto_cfg (k : Nat) (s : State) : (goto k s).cfg = s.cfg := rfl
@[simp] theorem goto_strict (k : Nat) (s : State) : (goto k s).strict = s.strict := rfl
@[simp] theorem goto_status (k : Nat) (s : State) : (goto k s).status = s.status := rfl
@[simp] theorem goto_errInfo (k : Nat) (s : State) : (goto k s).errInfo = s.errInfo := rfl
@[simp] theorem goto_msgLen (k : Nat) (s : State) : (goto k s).msgLen = s.msgLen := rfl
@[simp] theorem goto_bitLen (k : Nat) (s : State) : (goto k s).bitLen = s.bitLen := rfl
@[simp] theorem goto_reqPix (k : Nat) (s : State) : (goto k s).reqPix = s.reqPix := rfl
@[simp] theorem goto_msg (k : Nat) (s : State) : (goto k s).msg = s.msg := rfl
@[simp] theorem goto_bit (k : Nat) (s : State) : (goto k s).bit = s.bit := rfl
@[simp] theorem goto_grid (k : Nat) (s : State) : (goto k s).grid = s.grid := rfl
@[simp] theorem goto_copies (k : Nat) (s : State) : (goto k s).copies = s.copies := rfl
@[simp] theorem goto_prog (k : Nat) (s : State) : (goto k s).prog = s.prog := rfl
@[simp] theorem goto_hpc (k : Nat) (s : State) : (goto k s).hpc = k := rfl
@[simp] theorem goto_notes (k : Nat) (s : State) : (goto k s).notes = s.notes := rfl
@[simp] theorem goto_draws (k : Nat) (s : State) : (goto k s).draws = s.draws := rfl

@[simp] theorem advance_cfg (s : State) : (advance s).cfg = s.cfg := rfl
@[simp] theorem advance_strict (s : State) : (advance s).strict = s.strict := rfl
@[simp] theorem advance_status (s : State) : (advance s).status = s.status := rfl
@[simp] theorem advance_errInfo (s : State) : (advance s).errInfo = s.errInfo := rfl
@[simp] theorem advance_msgLen (s : State) : (advance s).msgLen = s.msgLen := rfl
@[simp] theorem advance_bitLen (s : State) : (advance s).bitLen = s.bitLen := rfl
@[simp] theorem advance_reqPix (s : State) : (advance s).reqPix = s.reqPix := rfl
@[simp] theorem advance_msg (s : State) : (advance s).msg = s.msg := rfl
@[simp] theorem advance_bit (s : State) : (advance s).bit = s.bit := rfl
@[simp] theorem advance_grid (s : State) : (advance s).grid = s.grid := rfl
@[simp] theorem advance_copies (s : State) : (advance s).copies = s.copies := rfl
@[simp] theorem advance_prog (s : State) : (advance s).prog = s.prog := rfl
@[simp] theorem advance_hpc (s : State) : (advance s).hpc = s.hpc + 1 := rfl
@[simp] theorem advance_notes (s : State) : (advance s).notes = s.notes := rfl
@[simp] theorem advance_draws (s : State) : (advance s).draws = s.draws := rfl

@[simp] theorem noteRead_cfg (a : Word) (s : State) : (noteRead a s).cfg = s.cfg := rfl
@[simp] theorem noteRead_strict (a : Word) (s : State) : (noteRead a s).strict = s.strict := rfl
@[simp] theorem noteRead_status (a : Word) (s : State) : (noteRead a s).status = s.status := rfl
@[simp] theorem noteRead_errInfo (a : Word) (s : State) : (noteRead a s).errInfo = s.errInfo := rfl
@[simp] theorem noteRead_msgLen (a : Word) (s : State) : (noteRead a s).msgLen = s.msgLen := rfl
@[simp] theorem noteRead_bitLen (a : Word) (s : State) : (noteRead a s).bitLen = s.bitLen := rfl
@[simp] theorem noteRead_reqPix (a : Word) (s : State) : (noteRead a s).reqPix = s.reqPix := rfl
@[simp] theorem noteRead_msg (a : Word) (s : State) : (noteRead a s).msg = s.msg := rfl
@[simp] theorem noteRead_bit (a : Word) (s : State) : (noteRead a s).bit = s.bit := rfl
@[simp] theorem noteRead_grid (a : Word) (s : State) : (noteRead a s).grid = s.grid := rfl
@[simp] theorem noteRead_copies (a : Word) (s : State) : (noteRead a s).copies = s.copies := rfl
@[simp] theorem noteRead_prog (a : Word) (s : State) : (noteRead a s).prog = s.prog := rfl
@[simp] theorem noteRead_hpc (a : Word) (s : State) : (noteRead a s).hpc = s.hpc := rfl
@[simp] theorem noteRead_notes (a : Word) (s : State) : (noteRead a s).notes = s.notes ++ [memRead s a] := rfl
@[simp] theorem noteRead_draws (a : Word) (s : State) : (noteRead a s).draws = s.draws := rfl

@[simp] theorem attachGrid_cfg (g : Grid) (s : State) : (attachGrid g s).cfg = s.cfg := rfl
@[simp] theorem attachGrid_strict (g : Grid) (s : State) : (attachGrid g s).strict = s.strict := rfl
@[simp] theorem attachGrid_status (g : Grid) (s : State) : (attachGrid g s).status = s.status := rfl
@[simp] theorem attachGrid_errInfo (g : Grid) (s : State) : (attachGrid g s).errInfo = s.errInfo := rfl
@[simp] theorem attachGrid_msgLen (g : Grid) (s : State) : (attachGrid g s).msgLen = s.msgLen := rfl
@[simp] theorem attachGrid_bitLen (g : Grid) (s : State) : (attachGrid g s).bitLen = s.bitLen := rfl
@[simp] theorem attachGrid_reqPix (g : Grid) (s : State) : (attachGrid g s).reqPix = s.reqPix := rfl
@[simp] theorem attachGrid_msg (g : Grid) (s : State) : (attachGrid g s).msg = s.msg := rfl
@[simp] theorem attachGrid_bit (g : Grid) (s : State) : (attachGrid g s).bit = s.bit := rfl
@[simp] theorem attachGrid_grid (g : Grid) (s : State) : (attachGrid g s).grid = g := rfl
@[simp] theorem attachGrid_copies (g : Grid) (s : State) : (attachGrid g s).copies = s.copies := rfl
@[simp] theorem attachGrid_prog (g : Grid) (s : State) : (attachGrid g s).prog = s.prog := rfl
@[simp] theorem attachGrid_hpc (g : Grid) (s : State) : (attachGrid g s).hpc = s.hpc := rfl
@[simp] theorem attachGrid_notes (g : Grid) (s : State) : (attachGrid g s).notes = s.notes := rfl
@[simp] theorem attachGrid_draws (g : Grid) (s : State) : (attachGrid g s).draws = s.draws := rfl

end Sys2Proof.Machine
end

