-- ==== Sys2Proof/Laws/Ops.lean ====
section
/-! SUPPORT. The shared operations: writing a buffer, embedding bits, the operands and their checks, sizes. -/

namespace Sys2Proof.Machine

@[simp] theorem overwrite_nil {α : Type} (buf : List α) : overwrite [] buf = buf := by
  cases buf <;> rfl

/-- Overwriting keeps a buffer's size. -/
@[simp] theorem length_overwrite {α : Type} (vals buf : List α) : (overwrite vals buf).length = buf.length := by
  induction vals generalizing buf with
  | nil => simp
  | cons v vs ih => cases buf <;> simp [overwrite, ih]

/-- Entry `j` of an overwritten buffer: the new value below the values' number, the old one from there on. -/
theorem getElem?_overwrite {α : Type} (vals buf : List α) (h : vals.length ≤ buf.length) (j : Nat) :
    (overwrite vals buf)[j]? = if j < vals.length then vals[j]? else buf[j]? := by
  induction vals generalizing buf j with
  | nil => simp
  | cons v vs ih =>
    cases buf with
    | nil => simp at h
    | cons b bs =>
      cases j with
      | zero => simp [overwrite]
      | succ j =>
        simp only [List.length_cons, Nat.add_le_add_iff_right] at h
        simp [overwrite, ih bs h j]

/-- The first entries of an overwritten buffer are the values written. -/
theorem take_overwrite {α : Type} (vals buf : List α) (h : vals.length ≤ buf.length) :
    (overwrite vals buf).take vals.length = vals := by
  induction vals generalizing buf with
  | nil => simp
  | cons v vs ih =>
    cases buf with
    | nil => simp at h
    | cons b bs =>
      simp only [List.length_cons, Nat.add_le_add_iff_right] at h
      simp [overwrite, ih bs h]

theorem embedBit_wellFormed {al : Bool} {g : Grid} (hg : g.WellFormed al) (k : Nat) (b : Bool) :
    (embedBit al g k b).WellFormed al := pixWriteBlue_wellFormed hg _ _ _

@[simp] theorem embedBit_w (al : Bool) (g : Grid) (k : Nat) (b : Bool) : (embedBit al g k b).w = g.w := by
  simp [embedBit]

@[simp] theorem embedBit_h (al : Bool) (g : Grid) (k : Nat) (b : Bool) : (embedBit al g k b).h = g.h := by
  simp [embedBit]

@[simp] theorem embedFrom_w (al : Bool) (k : Nat) (bits : List Bool) (g : Grid) :
    (embedFrom al k bits g).w = g.w := by
  induction bits generalizing k g with
  | nil => rfl
  | cons b rest ih => simp [embedFrom, ih]

@[simp] theorem embedFrom_h (al : Bool) (k : Nat) (bits : List Bool) (g : Grid) :
    (embedFrom al k bits g).h = g.h := by
  induction bits generalizing k g with
  | nil => rfl
  | cons b rest ih => simp [embedFrom, ih]

/-- Embedding keeps a grid well formed. -/
theorem embedFrom_wellFormed {al : Bool} (k : Nat) (bits : List Bool) {g : Grid} (hg : g.WellFormed al) :
    (embedFrom al k bits g).WellFormed al := by
  induction bits generalizing k g with
  | nil => exact hg
  | cons b rest ih => exact ih _ (embedBit_wellFormed hg k b)

/-- The pixel of a raster index below the capacity lies in the grid, so every pixel access of a command is inside it. -/
theorem raster_inGrid {w h k : Nat} (hk : k < w * h) : (raster h k).1 < w ∧ (raster h k).2 < h := by
  have hh : 0 < h := by
    rcases Nat.eq_zero_or_pos h with rfl | hh
    · simp at hk
    · exact hh
  exact ⟨(Nat.div_lt_iff_lt_mul hh).mpr hk, Nat.mod_lt _ hh⟩

/-- Embedding changes no byte but the blue bytes of the pixels it writes. -/
theorem embedFrom_other (al : Bool) (k : Nat) (bits : List Bool) (g : Grid) (a : Nat)
    (ha : ∀ j, k ≤ j → j < k + bits.length → a ≠ pixKey (j / g.h.toNat) (j % g.h.toNat) .blue) :
    readCell (embedFrom al k bits g).cells a = readCell g.cells a := by
  induction bits generalizing k g with
  | nil => rfl
  | cons b rest ih =>
    simp only [embedFrom]
    rw [ih (k + 1) (embedBit al g k b) (fun j h1 h2 => by
      simp only [embedBit_h]; exact ha j (by omega) (by simp only [List.length_cons]; omega))]
    exact pixWriteBlue_other _ _ _ _ (ha k (Nat.le_refl k) (by simp))

/-- The pixel of raster index `k` is `(x, y)` exactly when `k` is the index of `(x, y)` (R67). -/
theorem raster_eq_iff {h x y k : Nat} (hy : y < h) : (k / h = x ∧ k % h = y) ↔ k = x * h + y := by
  constructor
  · rintro ⟨rfl, rfl⟩; exact (Nat.div_add_mod' k h).symm
  · rintro rfl
    have h0 : 0 < h := by omega
    rw [Nat.mul_comm x h, Nat.mul_add_div h0, Nat.mul_add_mod, Nat.div_eq_of_lt hy, Nat.mod_eq_of_lt hy]
    exact ⟨by simp, rfl⟩

/-- The index of a pixel of the grid is below the capacity. -/
theorem rasterIndex_lt {w h x y : Nat} (hx : x < w) (hy : y < h) : x * h + y < w * h := by
  have : (x + 1) * h ≤ w * h := Nat.mul_le_mul_right h hx
  rw [Nat.add_mul] at this
  omega

/-- What embedding leaves in the blue channel of pixel `(x, y)`: the bit of its index, if there is one, in bit 0. -/
theorem embedFrom_blue {al : Bool} (k : Nat) (bits : List Bool) {g : Grid} (hg : g.WellFormed al)
    (hk : k + bits.length ≤ g.w.toNat * g.h.toNat) {x y : Nat} (hx : x < g.w.toNat) (hy : y < g.h.toNat) :
    (embedFrom al k bits g).channel x y .blue =
      if k ≤ x * g.h.toNat + y ∧ x * g.h.toNat + y < k + bits.length then
        blueWith (g.channel x y .blue) (bits.getD (x * g.h.toNat + y - k) false)
      else g.channel x y .blue := by
  induction bits generalizing k g with
  | nil => rw [if_neg (by simp)]; rfl
  | cons b rest ih =>
    simp only [List.length_cons] at hk
    simp only [embedFrom]
    have hin : (raster g.h.toNat k).1 < g.w.toNat ∧ (raster g.h.toNat k).2 < g.h.toNat := raster_inGrid (by omega)
    rw [ih (k + 1) (embedBit_wellFormed hg k b) (by simp; omega) (by simpa using hx) (by simpa using hy)]
    simp only [embedBit_h]
    by_cases hidx : k = x * g.h.toNat + y
    · have hr := (raster_eq_iff hy).mpr hidx
      have hb : (embedBit al g k b).channel x y .blue = blueWith (g.channel x y .blue) b := by
        simp only [embedBit, raster, hr.1, hr.2]
        exact pixWriteBlue_blue hg hx hy _
      rw [if_neg (by omega), if_pos (by simp; omega), hb, ← hidx]
      simp
    · have hne : pixKey x y .blue ≠ pixKey (raster g.h.toNat k).1 (raster g.h.toNat k).2 .blue := fun he => by
        have hlt := g.h.isLt
        have h3 := pixKey_inj (by omega) (by have := hin.2; omega) he
        exact hidx ((raster_eq_iff hy).mp ⟨h3.1.symm, h3.2.1.symm⟩)
      have hb : (embedBit al g k b).channel x y .blue = g.channel x y .blue := pixWriteBlue_other _ _ _ _ hne
      rw [hb]
      by_cases hc : k + 1 ≤ x * g.h.toNat + y ∧ x * g.h.toNat + y < k + 1 + rest.length
      · rw [if_pos hc, if_pos (by simp; omega)]
        obtain ⟨d, hd⟩ : ∃ d, x * g.h.toNat + y - k = d + 1 := ⟨x * g.h.toNat + y - k - 1, by omega⟩
        rw [hd, show x * g.h.toNat + y - (k + 1) = d by omega]
        simp
      · rw [if_neg hc, if_neg (by simp; omega)]

/-- `nBytes` is at most 2^24 - 1. -/
theorem nBytes_lt (s : State) : nBytes s < 2 ^ 24 := s.cfg.nBytes.isLt

/-- The capacity of any grid is below 2^32 (R24). -/
theorem capacity_lt (s : State) : capacity s < 2 ^ 32 := by
  have hw := s.grid.w.isLt
  have hh := s.grid.h.isLt
  have : s.grid.w.toNat * s.grid.h.toNat ≤ 65535 * 65535 := Nat.mul_le_mul (by omega) (by omega)
  simp only [capacity]
  omega

/-- What embedding does to a grid, when the bits fit (R69). -/
theorem embedFrom_gridEmbeds {al : Bool} {g : Grid} (hg : g.WellFormed al) (bits : List Bool)
    (hb : bits.length ≤ g.w.toNat * g.h.toNat) :
    gridEmbeds (fun k => bits.getD k false) bits.length g (embedFrom al 0 bits g) := by
  refine ⟨by simp, by simp, fun x hx y hy => ?_, fun a ha => ?_⟩
  · rw [embedFrom_blue 0 bits hg (by simpa using hb) hx hy]
    simp [blueWith]
  · exact embedFrom_other _ _ _ _ _ fun j _ hj => ha j (by omega)

/-- Only the bits below the count matter to what a grid embeds. -/
theorem gridEmbeds_congr {bits bits' : Nat → Bool} {m : Nat} {g g' : Grid} (h : gridEmbeds bits m g g')
    (hb : ∀ k < m, bits k = bits' k) : gridEmbeds bits' m g g' := by
  refine ⟨h.1, h.2.1, fun x hx y hy => ?_, h.2.2.2⟩
  rw [h.2.2.1 x hx y hy]
  split
  · rename_i hlt
    rw [hb _ hlt]
  · rfl

@[simp] theorem length_byteToBits (v : Byte) : (byteToBits v).length = 8 := rfl

/-- Bit `j` of a character's group is bit `7 - j` of the character (R55). -/
theorem getElem?_byteToBits (v : Byte) (j : Nat) (h : j < 8) : (byteToBits v)[j]? = some (v.getLsbD (7 - j)) := by
  interval_cases j <;> rfl

/-- A buffer drawn at reset has its size. -/
@[simp] theorem length_drawMsg (c : Config) (d : Nat) : (drawMsg c d).length = c.nBytes.toNat := by simp [drawMsg]

@[simp] theorem length_drawBit (c : Config) (d : Nat) : (drawBit c d).length = 8 * c.nBytes.toNat := by simp [drawBit]

/-! ### The parameters and the capacity after each update -/

@[simp] theorem nBytes_raise (e : ErrCode) (info : Word) (s : State) : nBytes (raise e info s) = nBytes s := rfl
@[simp] theorem nBytes_complete (t u f : Bool) (s : State) : nBytes (complete t u f s) = nBytes s := rfl
@[simp] theorem nBytes_clearSticky (s : State) : nBytes (clearSticky s) = nBytes s := rfl
@[simp] theorem nBytes_writeBits (l : List Bool) (s : State) : nBytes (writeBits l s) = nBytes s := rfl
@[simp] theorem nBytes_writeMessage (m : List Byte) (s : State) : nBytes (writeMessage m s) = nBytes s := rfl
@[simp] theorem nBytes_embedBits (l : List Bool) (s : State) : nBytes (embedBits l s) = nBytes s := rfl
@[simp] theorem nBytes_resetBlock (s : State) : nBytes (resetBlock s) = nBytes s := rfl
@[simp] theorem nBytes_advance (s : State) : nBytes (advance s) = nBytes s := rfl
@[simp] theorem nBytes_noteRead (a : Word) (s : State) : nBytes (noteRead a s) = nBytes s := rfl
@[simp] theorem nBytes_attachGrid (g : Grid) (s : State) : nBytes (attachGrid g s) = nBytes s := rfl

@[simp] theorem capacity_raise (e : ErrCode) (info : Word) (s : State) : capacity (raise e info s) = capacity s := rfl
@[simp] theorem capacity_complete (t u f : Bool) (s : State) : capacity (complete t u f s) = capacity s := rfl
@[simp] theorem capacity_clearSticky (s : State) : capacity (clearSticky s) = capacity s := rfl
@[simp] theorem capacity_writeBits (l : List Bool) (s : State) : capacity (writeBits l s) = capacity s := rfl
@[simp] theorem capacity_writeMessage (m : List Byte) (s : State) : capacity (writeMessage m s) = capacity s := rfl
@[simp] theorem capacity_embedBits (l : List Bool) (s : State) : capacity (embedBits l s) = capacity s := by simp [capacity]
@[simp] theorem capacity_resetBlock (s : State) : capacity (resetBlock s) = capacity s := rfl
@[simp] theorem capacity_advance (s : State) : capacity (advance s) = capacity s := rfl
@[simp] theorem capacity_noteRead (a : Word) (s : State) : capacity (noteRead a s) = capacity s := rfl

end Sys2Proof.Machine
end

