-- ==== Sys2Proof/Laws/Framing.lean ====
section
/-! SUPPORT. The framer's pure functions: bytes and bits, the bits of a frame, what the group loop of `deframe` returns. -/

namespace Sys2Proof.Machine

theorem bitsToByte_byteToBits (v : Byte) : bitsToByte (byteToBits v) = v := by
  revert v; decide

theorem exists_bits_of_length_eight {g : List Bool} (h : g.length = 8) :
    ∃ a b c d e f i j, g = [a, b, c, d, e, f, i, j] := by
  match g, h with
  | [a, b, c, d, e, f, i, j], _ => exact ⟨a, b, c, d, e, f, i, j, rfl⟩

theorem byteToBits_bitsToByte {g : List Bool} (h : g.length = 8) : byteToBits (bitsToByte g) = g := by
  obtain ⟨a, b, c, d, e, f, i, j, rfl⟩ := exists_bits_of_length_eight h
  revert a b c d e f i j
  decide

/-- A group is the terminator exactly when its value is 0. -/
theorem bitsToByte_eq_zero {g : List Bool} (h : g.length = 8) : bitsToByte g = 0 ↔ g = terminator := by
  constructor
  · intro hz
    rw [← byteToBits_bitsToByte h, hz]
    decide
  · rintro rfl
    decide

@[simp] theorem length_terminator : terminator.length = 8 := rfl

@[simp] theorem length_flatMap_byteToBits (m : List Byte) : (m.flatMap byteToBits).length = 8 * m.length := by
  induction m with
  | nil => rfl
  | cons c m ih => rw [List.flatMap_cons, List.length_append, ih, length_byteToBits, List.length_cons]; omega

/-- Bit `8i + j` of the characters' bits is bit `7 - j` of character `i` (R40). -/
theorem getElem?_flatMap_byteToBits {m : List Byte} {i j : Nat} {c : Byte} (h : m[i]? = some c) (hj : j < 8) :
    (m.flatMap byteToBits)[8 * i + j]? = some (c.getLsbD (7 - j)) := by
  induction m generalizing i with
  | nil => simp at h
  | cons d m ih =>
    rw [List.flatMap_cons]
    cases i with
    | zero =>
      simp only [List.getElem?_cons_zero, Option.some.injEq] at h
      subst h
      rw [List.getElem?_append_left (by simp; omega)]
      simpa using getElem?_byteToBits d j hj
    | succ i =>
      rw [List.getElem?_append_right (by simp; omega), length_byteToBits,
        show 8 * (i + 1) + j - 8 = 8 * i + j by omega]
      exact ih (by simpa using h)

/-- The frame of a message that is not empty. -/
theorem frame_of_pos {m : List Byte} (h : 0 < m.length) : frame m = m.flatMap byteToBits ++ terminator := by
  cases m with
  | nil => simp at h
  | cons => rfl

/-- The number of bits of a frame is what `CAPCHECK` computes (R76). -/
theorem length_frame (m : List Byte) : (frame m).length = requiredPixels m.length := by
  cases m with
  | nil => rfl
  | cons c m => rw [frame_of_pos (by simp), List.length_append]; simp [requiredPixels]; omega

/-- Everything the group loop of `deframe` can return, on groups that exist. -/
theorem deframeGroups_spec (n : Nat) (s : List Bool) (h : 8 * n ≤ s.length) :
    (deframeGroups n s).1.length ≤ n ∧
    ((deframeGroups n s).2 = false ↔ (deframeGroups n s).1.length = n) ∧
    ((deframeGroups n s).2 = true → (s.drop (8 * (deframeGroups n s).1.length)).take 8 = terminator) ∧
    ∀ (k : Nat) (c : Byte), (deframeGroups n s).1[k]? = some c →
      c ≠ 0 ∧ (s.drop (8 * k)).take 8 = byteToBits c := by
  induction n generalizing s with
  | zero => simp [deframeGroups]
  | succ n ih =>
    simp only [deframeGroups]
    have hl : (s.take 8).length = 8 := by simp; omega
    split
    · rename_i hz
      simp [(bitsToByte_eq_zero hl).mp hz]
    · rename_i hz
      obtain ⟨h1, h2, h3, h4⟩ := ih (s.drop 8) (by simp; omega)
      refine ⟨by simpa using h1, by simpa using h2, fun ht => ?_, fun k c hk => ?_⟩
      · have := h3 ht
        rw [List.drop_drop] at this
        rw [List.length_cons, show ∀ l, 8 * (l + 1) = 8 + 8 * l from fun l => by omega]
        exact this
      · cases k with
        | zero =>
          simp only [List.getElem?_cons_zero, Option.some.injEq] at hk
          subst hk
          exact ⟨hz, by rw [byteToBits_bitsToByte hl]; simp⟩
        | succ k =>
          have := h4 k c (by simpa using hk)
          rw [List.drop_drop] at this
          rw [show 8 * (k + 1) = 8 + 8 * k by omega]
          exact this

/-- The group loop reads non-zero characters back, up to a terminator. -/
theorem deframeGroups_of_terminated {m : List Byte} (hm : ∀ c ∈ m, c ≠ 0) {n : Nat} (more : List Bool)
    (hn : m.length < n) : deframeGroups n (m.flatMap byteToBits ++ (terminator ++ more)) = (m, true) := by
  induction m generalizing n with
  | nil =>
    obtain ⟨n, rfl⟩ : ∃ k, n = k + 1 := ⟨n - 1, by simp at hn; omega⟩
    simp [deframeGroups, terminator, bitsToByte, bitsToNat]
  | cons c m ih =>
    obtain ⟨n, rfl⟩ : ∃ k, n = k + 1 := ⟨n - 1, by simp at hn; omega⟩
    simp only [deframeGroups, List.flatMap_cons, List.append_assoc]
    rw [List.take_left' (length_byteToBits c), List.drop_left' (length_byteToBits c), bitsToByte_byteToBits,
      if_neg (hm c (by simp)), ih (fun d hd => hm d (by simp [hd])) (by simp at hn; omega)]

end Sys2Proof.Machine
end

