-- ==== Sys2Proof/Laws/HostPort.lean ====
section
/-! SUPPORT. The address map: which address names which register or buffer entry, and the words that decode. -/

namespace Sys2Proof.Machine

theorem msgBase_eq : msgBase = 16777216 := rfl

theorem bitBase_eq : bitBase = 134217728 := rfl

theorem registerTarget_ne_msg (a i : Nat) : registerTarget a ≠ .msg i := by
  unfold registerTarget; split <;> simp

theorem registerTarget_ne_bit (a j : Nat) : registerTarget a ≠ .bit j := by
  unfold registerTarget; split <;> simp

/-- Above the registers and below `MSG[]` every address is reserved. -/
theorem registerTarget_reserved {a : Nat} (h : 11 < a) : registerTarget a = .reserved := by
  match a, h with
  | _ + 12, _ => rfl

/-- Each of the twelve register addresses of R33 holds a register. -/
theorem registerTarget_ne_reserved : ∀ k < 12, registerTarget k ≠ .reserved := by decide

/-- No two of the addresses of R33 hold the same register. -/
theorem registerTarget_inj {a k : Nat} (hk : k < 12) (h : registerTarget a = registerTarget k) : a = k := by
  have distinct : ∀ k < 12, ∀ a < 12, registerTarget a = registerTarget k → a = k := by decide
  by_cases ha : a < 12
  · exact distinct k hk a ha h
  · rw [registerTarget_reserved (by omega)] at h
    exact absurd h.symm (registerTarget_ne_reserved k hk)

/-- An address names `MSG[i]` exactly when it is the `i`-th address of the window (R21, R33). -/
theorem portTarget_eq_msg {n : Nat} (a : Word) (i : Nat) :
    portTarget n a = .msg i ↔ i < n ∧ a.toNat = msgBase + i := by
  have := msgBase_eq
  have := bitBase_eq
  simp only [portTarget]
  split
  · rename_i h
    refine ⟨fun h' => absurd h' (registerTarget_ne_msg _ _), fun h' => ?_⟩
    omega
  · split
    · simp only [PortTarget.msg.injEq]; omega
    · split
      · simp only [reduceCtorEq, false_iff]; omega
      · split <;> (simp only [reduceCtorEq, false_iff]; omega)

/-- An address names `BIT[j]` exactly when it is the `j`-th address of the window (R22, R33). -/
theorem portTarget_eq_bit {n : Nat} (hn : n < 2 ^ 24) (a : Word) (j : Nat) :
    portTarget n a = .bit j ↔ j < 8 * n ∧ a.toNat = bitBase + j := by
  have := msgBase_eq
  have := bitBase_eq
  simp only [portTarget]
  split
  · refine ⟨fun h' => absurd h' (registerTarget_ne_bit _ _), fun h' => ?_⟩
    omega
  · split
    · simp only [reduceCtorEq, false_iff]; omega
    · split
      · simp only [reduceCtorEq, false_iff]; omega
      · split
        · simp only [PortTarget.bit.injEq]; omega
        · simp only [reduceCtorEq, false_iff]; omega

/-- Below `MSG[]` an address names what the register map gives. -/
theorem portTarget_low {n : Nat} {a : Word} (h : a.toNat < msgBase) : portTarget n a = registerTarget a.toNat := by
  simp [portTarget, h]

/-- From `MSG[]` on, an address names a buffer entry or is reserved. -/
theorem portTarget_high {n : Nat} {a : Word} (h : msgBase ≤ a.toNat) :
    (∃ i, portTarget n a = .msg i) ∨ (∃ j, portTarget n a = .bit j) ∨ portTarget n a = .reserved := by
  simp only [portTarget]
  rw [if_neg (by omega)]
  split
  · exact .inl ⟨_, rfl⟩
  · split
    · exact .inr (.inr rfl)
    · split
      · exact .inr (.inl ⟨_, rfl⟩)
      · exact .inr (.inr rfl)

/-- Outside the registers and the two windows every address is reserved (R34). -/
theorem portTarget_reserved {n : Nat} (hn : n < 2 ^ 24) {a : Word} (h1 : 11 < a.toNat)
    (h2 : ¬ (msgBase ≤ a.toNat ∧ a.toNat < msgBase + n)) (h3 : ¬ (bitBase ≤ a.toNat ∧ a.toNat < bitBase + 8 * n)) :
    portTarget n a = .reserved := by
  by_cases h : a.toNat < msgBase
  · rw [portTarget_low h, registerTarget_reserved h1]
  · rcases portTarget_high (n := n) (Nat.le_of_not_lt h) with ⟨i, hi⟩ | ⟨j, hj⟩ | hr
    · have := (portTarget_eq_msg a i).mp hi; omega
    · have := (portTarget_eq_bit hn a j).mp hj; omega
    · exact hr

/-- An address names the register `k < 12` only if it is `k`. -/
theorem portTarget_register {n k : Nat} (hk : k < 12) {a : Word} (h : portTarget n a = registerTarget k) :
    a = BitVec.ofNat 32 k := by
  apply BitVec.eq_of_toNat_eq
  have hk' : (BitVec.ofNat 32 k).toNat = k := by simp; omega
  rw [hk']
  by_cases hl : a.toNat < msgBase
  · exact registerTarget_inj hk ((portTarget_low (n := n) hl).symm.trans h)
  · exfalso
    rcases portTarget_high (n := n) (Nat.le_of_not_lt hl) with ⟨i, hi⟩ | ⟨j, hj⟩ | hx
    · exact registerTarget_ne_msg _ _ (h.symm.trans hi)
    · exact registerTarget_ne_bit _ _ (h.symm.trans hj)
    · exact registerTarget_ne_reserved k hk (h.symm.trans hx)

@[simp] theorem bitWord_toNat (b : Bool) : (bitWord b).toNat = b.toNat := by cases b <;> rfl

/-- The number `CAPS` reads as (R26). -/
theorem capsWord_toNat (c : Config) : (capsWord c).toNat = c.nBytes.toNat + 2 ^ 24 * c.hasAlpha.toNat := by
  have hn := c.nBytes.isLt
  have key : ∀ x : BitVec 8, (x ++ c.nBytes : BitVec 32).toNat = x.toNat * 2 ^ 24 + c.nBytes.toNat := by
    intro x
    have h := BitVec.toNat_append x c.nBytes
    rw [Nat.shiftLeft_eq, Nat.mul_comm, ← Nat.two_pow_add_eq_or_of_lt hn] at h
    rw [Nat.mul_comm]
    exact h
  cases h : c.hasAlpha
  · have := key 0#8; simp [capsWord, h] at this ⊢; omega
  · have := key 1#8; simp [capsWord, h] at this ⊢; omega

/-- The number the capacity word is (R24): the product is exact. -/
theorem capacityWord_toNat (s : State) : (BitVec.ofNat 32 (capacity s)).toNat = capacity s := by
  rw [BitVec.toNat_ofNat, Nat.mod_eq_of_lt (capacity_lt s)]

end Sys2Proof.Machine
end

