-- ==== Sys2Proof/Laws/Operands.lean ====
section
/-! SUPPORT. The operands of the commands: for each check, exactly when it gives the operand and when it raises what. -/

namespace Sys2Proof.Machine

/-- `MSG_LEN` in range. -/
theorem messageLength_ok {s : State} (h : s.msgLen.toNat ≤ nBytes s - 1) : messageLength s = .ok s.msgLen.toNat := by
  rw [messageLength, if_neg (by omega)]

/-- `MSG_LEN` out of range. -/
theorem messageLength_error {s : State} (h : nBytes s - 1 < s.msgLen.toNat) :
    messageLength s = .error { err := .lengthError, info := s.msgLen } := by
  rw [messageLength, if_pos (by omega)]

/-- Entry `i` of the code words is `MSG[i]`, below `MSG_LEN`. -/
theorem getElem?_messageWords {s : State} (hs : s.msg.length = nBytes s) (h : s.msgLen.toNat ≤ nBytes s) (i : Nat) :
    (messageWords s)[i]? = if i < s.msgLen.toNat then some (msgAt s i) else none := by
  simp only [messageWords, List.getElem?_take, msgAt, List.getD]
  split
  · rw [List.getElem?_eq_getElem (by omega)]; rfl
  · rfl

theorem length_messageWords {s : State} (hs : s.msg.length = nBytes s) (h : s.msgLen.toNat ≤ nBytes s) :
    (messageWords s).length = s.msgLen.toNat := by
  simp [messageWords]; omega

theorem length_messageBytes {s : State} (hs : s.msg.length = nBytes s) (h : s.msgLen.toNat ≤ nBytes s) :
    (messageBytes s).length = s.msgLen.toNat := by
  rw [messageBytes, List.length_map, length_messageWords hs h]

/-- Character `i` of the message is the low byte of `MSG[i]`. -/
theorem getElem?_messageBytes {s : State} (hs : s.msg.length = nBytes s) (h : s.msgLen.toNat ≤ nBytes s) {i : Nat}
    (hi : i < s.msgLen.toNat) : (messageBytes s)[i]? = some ((msgAt s i).setWidth 8) := by
  rw [messageBytes, List.getElem?_map, getElem?_messageWords hs h, if_pos hi]
  rfl

@[simp] theorem length_extractedBits (s : State) : (extractedBits s).length = capacity s := by simp [extractedBits]

/-- The bit extracted from pixel `(x, y)` (R70). -/
theorem getElem?_extractedBits {s : State} {x y : Nat} (hx : x < s.grid.w.toNat) (hy : y < s.grid.h.toNat) :
    (extractedBits s)[x * s.grid.h.toNat + y]? = some ((s.grid.channel x y .blue).getLsbD 0) := by
  have hr := (raster_eq_iff (x := x) hy).mpr rfl
  have hlt : x * s.grid.h.toNat + y < capacity s := rasterIndex_lt hx hy
  rw [extractedBits, List.getElem?_map, List.getElem?_range hlt, Option.map_some]
  simp only [blueLowBit, raster, hr.1, hr.2]
  rfl

/-- The check finds index `i` exactly when it is the lowest with a value above 255 (R83). -/
theorem firstIllegal_eq_some {codes : List Word} {i : Nat} :
    firstIllegal codes = some i ↔
      ∃ c, codes[i]? = some c ∧ 255 < c.toNat ∧ ∀ j < i, ∀ d : Word, codes[j]? = some d → d.toNat ≤ 255 := by
  unfold firstIllegal
  rw [List.findIdx?_eq_some_iff_getElem]
  constructor
  · rintro ⟨h, hp, hj⟩
    refine ⟨codes[i], List.getElem?_eq_getElem h, by simpa using hp, fun j hji d hd => ?_⟩
    obtain ⟨hl, rfl⟩ := List.getElem?_eq_some_iff.mp hd
    simpa using hj j hji
  · rintro ⟨c, hc, hp, hj⟩
    obtain ⟨h, rfl⟩ := List.getElem?_eq_some_iff.mp hc
    refine ⟨h, by simpa using hp, fun j hji => ?_⟩
    simpa using hj j hji _ (List.getElem?_eq_getElem (by omega))

/-- The check finds nothing exactly when every code word is a character. -/
theorem firstIllegal_eq_none {codes : List Word} :
    firstIllegal codes = none ↔ ∀ (j : Nat) (d : Word), codes[j]? = some d → d.toNat ≤ 255 := by
  unfold firstIllegal
  rw [List.findIdx?_eq_none_iff]
  constructor
  · intro h j d hd
    simpa using h d (List.mem_of_getElem? hd)
  · intro h d hd
    obtain ⟨j, hj⟩ := List.getElem?_of_mem hd
    simpa using h j d hj

/-- The message operand when the length is out of range: the length is checked first (R90). -/
theorem messageOperand_length {s : State} (h : nBytes s - 1 < s.msgLen.toNat) :
    messageOperand s = .error { err := .lengthError, info := s.msgLen } := by
  rw [messageOperand, messageLength_error h]

/-- The message operand when some code word is no character (R83). -/
theorem messageOperand_encoding {s : State} (hs : s.msg.length = nBytes s) (h : s.msgLen.toNat ≤ nBytes s - 1) {i : Nat}
    (hi : lowestIllegal s i) :
    messageOperand s = .error { err := .encodingError, info := BitVec.ofNat 32 i } := by
  have hw := getElem?_messageWords hs (show s.msgLen.toNat ≤ nBytes s by omega)
  have hf : firstIllegal (messageWords s) = some i := by
    refine firstIllegal_eq_some.mpr ⟨msgAt s i, by rw [hw, if_pos hi.1], hi.2.1, fun j hj d hd => ?_⟩
    rw [hw, if_pos (by have := hi.1; omega)] at hd
    cases hd
    exact hi.2.2 j hj
  simp [messageOperand, messageLength_ok h, hf]

/-- The message operand when the length and every code word are legal: the characters. -/
theorem messageOperand_ok {s : State} (hs : s.msg.length = nBytes s) (h : s.msgLen.toNat ≤ nBytes s - 1)
    (hl : messageLegal s) : messageOperand s = .ok (messageBytes s) := by
  have hw := getElem?_messageWords hs (show s.msgLen.toNat ≤ nBytes s by omega)
  have hf : firstIllegal (messageWords s) = none := by
    refine firstIllegal_eq_none.mpr fun j d hd => ?_
    rw [hw] at hd
    split at hd
    · rename_i hj; cases hd; exact hl j hj
    · cases hd
  simp [messageOperand, messageLength_ok h, hf]

/-- A message that is not legal has a lowest illegal index. -/
theorem exists_lowestIllegal {s : State} (h : ¬ messageLegal s) : ∃ i, lowestIllegal s i := by
  have h' : ∃ i, i < s.msgLen.toNat ∧ 255 < (msgAt s i).toNat := by
    by_contra hn
    exact h fun i hi => Nat.le_of_not_lt fun hlt => hn ⟨i, hi, hlt⟩
  classical
  refine ⟨Nat.find h', (Nat.find_spec h').1, (Nat.find_spec h').2, fun j hj => ?_⟩
  have h1 := Nat.find_min h' hj
  have h2 := (Nat.find_spec h').1
  exact Nat.le_of_not_lt fun hlt => h1 ⟨by omega, hlt⟩

/-- In a legal state a frame's length fits in `BIT[]` and in `BIT_LEN` (R85). -/
theorem requiredPixels_le {s : State} (hc : s.cfg.WellFormed) (h : s.msgLen.toNat ≤ nBytes s - 1) :
    requiredPixels s.msgLen.toNat ≤ 8 * nBytes s := by
  have hpos : nBytes s ≠ 0 := fun h0 => hc (BitVec.eq_of_toNat_eq (by simpa [nBytes] using h0))
  unfold requiredPixels
  split <;> omega

theorem requiredPixels_lt {s : State} (h : s.msgLen.toNat ≤ nBytes s - 1) :
    requiredPixels s.msgLen.toNat < 2 ^ 32 := by
  have := nBytes_lt s
  unfold requiredPixels
  split <;> omega

theorem bitOperand_ok {s : State} (h : s.bitLen.toNat ≤ 8 * nBytes s) :
    bitOperand s = .ok (s.bit.take s.bitLen.toNat) := by
  rw [bitOperand, if_neg (by omega)]

theorem bitOperand_error {s : State} (h : 8 * nBytes s < s.bitLen.toNat) :
    bitOperand s = .error { err := .lengthError, info := s.bitLen } := by
  rw [bitOperand, if_pos (by omega)]

theorem gridBits_ok {s : State} (h : capacity s ≤ 8 * nBytes s) :
    gridBits s = .ok (extractedBits s) := by
  rw [gridBits, if_neg (by omega)]

theorem gridBits_error {s : State} (h : 8 * nBytes s < capacity s) :
    gridBits s = .error { err := .lengthError, info := BitVec.ofNat 32 (capacity s) } := by
  rw [gridBits, if_pos (by omega)]

theorem capacityCheck_ok {len : Nat} {s : State} (h : s.strict = true → len ≤ capacity s) :
    capacityCheck len s = .ok () := by
  rw [capacityCheck, if_neg]
  intro hc
  simp only [Bool.and_eq_true, decide_eq_true_eq] at hc
  have := h hc.1
  omega

theorem capacityCheck_error {len : Nat} {s : State} (h : s.strict = true) (hl : capacity s < len) :
    capacityCheck len s = .error { err := .capacityExceeded, info := BitVec.ofNat 32 len } := by
  rw [capacityCheck, if_pos (by simp [h, hl])]

end Sys2Proof.Machine
end

