-- ==== Sys2Proof/Laws/Commands.lean ====
section
/-! SUPPORT. Each command, once: the state it answers in each of its cases, and what its writes leave. -/

namespace Sys2Proof.Machine

/-- After `FENC` wrote the frame, `BIT[]` and `BIT_LEN` hold it. -/
theorem writeBits_framesMessage {s : State} (hc : s.cfg.WellFormed) (hb : buffersSized s)
    (h : s.msgLen.toNat ≤ nBytes s - 1) : framesMessage s (writeBits (frame (messageBytes s)) s) := by
  have hlen := length_messageBytes hb.1 (show s.msgLen.toNat ≤ nBytes s by omega)
  have hL := length_frame (messageBytes s)
  rw [hlen] at hL
  have hle := requiredPixels_le hc h
  have hfit : (frame (messageBytes s)).length ≤ s.bit.length := by rw [hL, hb.2]; exact hle
  have hbl : (writeBits (frame (messageBytes s)) s).bitLen.toNat = requiredPixels s.msgLen.toNat := by
    rw [writeBits_bitLen, hL, BitVec.toNat_ofNat, Nat.mod_eq_of_lt (requiredPixels_lt h)]
  have hp : 0 < s.msgLen.toNat → requiredPixels s.msgLen.toNat = 8 * (s.msgLen.toNat + 1) := fun h0 => by
    rw [requiredPixels, if_neg (by omega)]
  refine ⟨hbl, fun i hi j hj => ?_, fun h0 j hj => ?_, fun j hj => ?_⟩
  · have := hp (by omega)
    rw [writeBits_bit, getElem?_overwrite _ _ hfit, if_pos (by omega), frame_of_pos (by omega),
      List.getElem?_append_left (by rw [length_flatMap_byteToBits]; omega),
      getElem?_flatMap_byteToBits (getElem?_messageBytes hb.1 (by omega) hi) hj]
    simp
    omega
  · have := hp h0
    rw [writeBits_bit, getElem?_overwrite _ _ hfit, if_pos (by omega), frame_of_pos (by omega),
      List.getElem?_append_right (by rw [length_flatMap_byteToBits]; omega), length_flatMap_byteToBits, hlen,
      Nat.add_sub_cancel_left, terminator, List.getElem?_replicate, if_pos hj]
  · rw [writeBits_bit, getElem?_overwrite _ _ hfit, if_neg (by omega)]

/-- After the characters were written, `MSG[]` and `MSG_LEN` hold them. -/
theorem writeMessage_holdsMessage {s : State} (m : List Byte) (h : m.length ≤ s.msg.length) (hlt : m.length < 2 ^ 32) :
    holdsMessage m s (writeMessage m s) := by
  refine ⟨by rw [writeMessage_msgLen, BitVec.toNat_ofNat, Nat.mod_eq_of_lt hlt], fun k hk => ?_, fun k hk => ?_⟩
  · rw [writeMessage_msg, getElem?_overwrite _ _ (by simpa using h), if_pos (by simpa using hk), List.getElem?_map]
  · rw [writeMessage_msg, getElem?_overwrite _ _ (by simpa using h), if_neg (by simpa using hk)]

/-- After the extracted bits were written, `BIT[]` and `BIT_LEN` hold them. -/
theorem writeBits_holdsGridBits {s : State} (hb : s.bit.length = 8 * nBytes s) (h : capacity s ≤ 8 * nBytes s) :
    holdsGridBits s (writeBits (extractedBits s) s) := by
  have hfit : (extractedBits s).length ≤ s.bit.length := by rw [length_extractedBits]; omega
  refine ⟨?_, fun x hx y hy => ?_, fun j hj => ?_⟩
  · rw [writeBits_bitLen, length_extractedBits, capacityWord_toNat]
    rfl
  · rw [writeBits_bit, getElem?_overwrite _ _ hfit,
      if_pos (by rw [length_extractedBits]; exact rasterIndex_lt hx hy), getElem?_extractedBits hx hy]
  · rw [writeBits_bit, getElem?_overwrite _ _ hfit, if_neg (by rw [length_extractedBits]; exact Nat.not_lt.mpr hj)]

/-- What `EMBED` writes into the grid. -/
theorem embed_gridEmbeds {s : State} (hb : buffersSized s) (hg : s.grid.WellFormed s.cfg.hasAlpha)
    (h : s.bitLen.toNat ≤ 8 * nBytes s) :
    gridEmbeds (bitAt s) (min s.bitLen.toNat (capacity s)) s.grid
      (embedFrom s.cfg.hasAlpha 0 ((s.bit.take s.bitLen.toNat).take (capacity s)) s.grid) := by
  have hl : ((s.bit.take s.bitLen.toNat).take (capacity s)).length = min s.bitLen.toNat (capacity s) := by
    have := hb.2
    simp only [List.length_take]
    omega
  have hg := embedFrom_gridEmbeds hg ((s.bit.take s.bitLen.toNat).take (capacity s))
    (by rw [hl]; exact Nat.min_le_right _ _)
  rw [hl] at hg
  refine gridEmbeds_congr hg fun k hk => ?_
  simp only [List.getD, List.getElem?_take, bitAt]
  rw [if_pos (by omega), if_pos (by omega)]

/-- What `HIDE` writes into the grid: the bits it leaves in `BIT[]`. -/
theorem hide_gridEmbeds {s : State} (hc : s.cfg.WellFormed) (hb : buffersSized s)
    (hg : s.grid.WellFormed s.cfg.hasAlpha) (h : s.msgLen.toNat ≤ nBytes s - 1) :
    gridEmbeds (bitAt (writeBits (frame (messageBytes s)) s)) (min (requiredPixels s.msgLen.toNat) (capacity s)) s.grid
      (embedFrom s.cfg.hasAlpha 0 ((frame (messageBytes s)).take (capacity s)) s.grid) := by
  have hL := length_frame (messageBytes s)
  rw [length_messageBytes hb.1 (by omega)] at hL
  have hle := requiredPixels_le hc h
  have hl : ((frame (messageBytes s)).take (capacity s)).length = min (requiredPixels s.msgLen.toNat) (capacity s) := by
    rw [List.length_take, hL, Nat.min_comm]
  have hg := embedFrom_gridEmbeds hg ((frame (messageBytes s)).take (capacity s))
    (by rw [hl]; exact Nat.min_le_right _ _)
  rw [hl] at hg
  refine gridEmbeds_congr hg fun k hk => ?_
  have := hb.2
  simp only [List.getD, List.getElem?_take, bitAt, writeBits_bit]
  rw [getElem?_overwrite _ _ (by omega), if_pos (by omega), if_pos (by omega)]

/-- The extracted bits written into `BIT[]` are what is read back from it. -/
theorem take_overwrite_extractedBits {s : State} (hb : s.bit.length = 8 * nBytes s) (h : capacity s ≤ 8 * nBytes s) :
    (overwrite (extractedBits s) s.bit).take (capacity s) = extractedBits s := by
  have := take_overwrite (extractedBits s) s.bit (by rw [length_extractedBits]; omega)
  rwa [length_extractedBits] at this

/-- A decoded message has no more characters than the bits have whole groups. -/
theorem length_deframe_le (bits : List Bool) : (deframe bits).1.length ≤ bits.length / 8 :=
  (deframeGroups_spec (bits.length / 8) bits (by omega)).1

/-! ### `FENC` -/

theorem fenc_length {s : State} (h : nBytes s - 1 < s.msgLen.toNat) :
    exec .fenc s = .next (raise .lengthError s.msgLen s) := by
  simp [exec, execFenc, messageOperand_length h]

theorem fenc_encoding {s : State} (hs : s.msg.length = nBytes s) (h : s.msgLen.toNat ≤ nBytes s - 1) {i : Nat}
    (hi : lowestIllegal s i) : exec .fenc s = .next (raise .encodingError (BitVec.ofNat 32 i) s) := by
  simp [exec, execFenc, messageOperand_encoding hs h hi]

theorem fenc_ok {s : State} (hs : s.msg.length = nBytes s) (h : s.msgLen.toNat ≤ nBytes s - 1) (hl : messageLegal s) :
    exec .fenc s = .next (complete false false false (writeBits (frame (messageBytes s)) s)) := by
  simp [exec, execFenc, messageOperand_ok hs h hl]

/-! ### `FDEC` -/

theorem fdec_length {s : State} (h : 8 * nBytes s < s.bitLen.toNat) :
    exec .fdec s = .next (raise .lengthError s.bitLen s) := by
  simp [exec, execFdec, bitOperand_error h]

theorem fdec_ok {s : State} (h : s.bitLen.toNat ≤ 8 * nBytes s) :
    exec .fdec s = .next (complete (deframe (s.bit.take s.bitLen.toNat)).2 false false
      (writeMessage (deframe (s.bit.take s.bitLen.toNat)).1 s)) := by
  simp [exec, execFdec, bitOperand_ok h]

/-! ### `EMBED` -/

theorem embed_length {s : State} (h : 8 * nBytes s < s.bitLen.toNat) :
    exec .embed s = .next (raise .lengthError s.bitLen s) := by
  simp [exec, execEmbed, bitOperand_error h]

theorem embed_capacity {s : State} (h : s.bitLen.toNat ≤ 8 * nBytes s) (hst : s.strict = true)
    (hc : capacity s < s.bitLen.toNat) : exec .embed s = .next (raise .capacityExceeded s.bitLen s) := by
  simp [exec, execEmbed, bitOperand_ok h, capacityCheck_error hst hc]

theorem embed_ok {s : State} (h : s.bitLen.toNat ≤ 8 * nBytes s) (hc : s.strict = true → s.bitLen.toNat ≤ capacity s) :
    exec .embed s = .next (complete false (truncFlag s.bitLen.toNat (capacity s)) false
      (embedBits ((s.bit.take s.bitLen.toNat).take (capacity s)) s)) := by
  simp only [exec, execEmbed, bitOperand_ok h, capacityCheck_ok hc]

/-! ### `EXTRACT` -/

theorem extract_length {s : State} (h : 8 * nBytes s < capacity s) :
    exec .extract s = .next (raise .lengthError (BitVec.ofNat 32 (capacity s)) s) := by
  simp [exec, execExtract, gridBits_error h]

theorem extract_ok {s : State} (h : capacity s ≤ 8 * nBytes s) :
    exec .extract s = .next (complete false false false (writeBits (extractedBits s) s)) := by
  simp [exec, execExtract, gridBits_ok h]

/-! ### `HIDE` -/

theorem hide_length {s : State} (h : nBytes s - 1 < s.msgLen.toNat) :
    exec .hide s = .next (raise .lengthError s.msgLen s) := by
  simp [exec, execHide, messageOperand_length h]

theorem hide_encoding {s : State} (hs : s.msg.length = nBytes s) (h : s.msgLen.toNat ≤ nBytes s - 1) {i : Nat}
    (hi : lowestIllegal s i) : exec .hide s = .next (raise .encodingError (BitVec.ofNat 32 i) s) := by
  simp [exec, execHide, messageOperand_encoding hs h hi]

theorem hide_capacity {s : State} (hs : s.msg.length = nBytes s) (h : s.msgLen.toNat ≤ nBytes s - 1)
    (hl : messageLegal s) (hst : s.strict = true) (hc : capacity s < requiredPixels s.msgLen.toNat) :
    exec .hide s = .next (raise .capacityExceeded (BitVec.ofNat 32 (requiredPixels s.msgLen.toNat)) s) := by
  have hL := length_frame (messageBytes s)
  rw [length_messageBytes hs (by omega)] at hL
  simp only [exec, execHide, messageOperand_ok hs h hl, hL, capacityCheck_error hst hc]

theorem hide_ok {s : State} (hs : s.msg.length = nBytes s) (h : s.msgLen.toNat ≤ nBytes s - 1) (hl : messageLegal s)
    (hc : s.strict = true → requiredPixels s.msgLen.toNat ≤ capacity s) :
    exec .hide s = .next (complete false (truncFlag (requiredPixels s.msgLen.toNat) (capacity s)) false
      (embedBits ((frame (messageBytes s)).take (capacity s)) (writeBits (frame (messageBytes s)) s))) := by
  have hL := length_frame (messageBytes s)
  rw [length_messageBytes hs (by omega)] at hL
  simp only [exec, execHide, messageOperand_ok hs h hl, hL, capacityCheck_ok hc]

/-! ### `REVEAL` -/

theorem reveal_length {s : State} (h : 8 * nBytes s < capacity s) :
    exec .reveal s = .next (raise .lengthError (BitVec.ofNat 32 (capacity s)) s) := by
  simp [exec, execReveal, gridBits_error h]

theorem reveal_ok {s : State} (h : capacity s ≤ 8 * nBytes s) :
    exec .reveal s = .next (complete (deframe ((overwrite (extractedBits s) s.bit).take (capacity s))).2 false false
      (writeMessage (deframe ((overwrite (extractedBits s) s.bit).take (capacity s))).1
        (writeBits (extractedBits s) s))) := by
  simp [exec, execReveal, gridBits_ok h]

/-! ### `CAPCHECK` -/

theorem capcheck_length {s : State} (h : nBytes s - 1 < s.msgLen.toNat) :
    exec .capcheck s = .next (raise .lengthError s.msgLen s) := by
  simp [exec, execCapcheck, messageLength_error h]

theorem capcheck_ok {s : State} (h : s.msgLen.toNat ≤ nBytes s - 1) :
    exec .capcheck s = .next (complete false false (fitsFlag (requiredPixels s.msgLen.toNat) (capacity s))
      { s with reqPix := BitVec.ofNat 32 (requiredPixels s.msgLen.toNat) }) := by
  simp [exec, execCapcheck, messageLength_ok h]

/-! ### Every command -/

/-- What a command's checks guarantee when it goes on to its writes (R85). -/
def commandGuard (i : Instr) (s : State) : Prop :=
  match i with
  | .fenc | .hide | .capcheck => s.msgLen.toNat ≤ nBytes s - 1
  | .fdec | .embed => s.bitLen.toNat ≤ 8 * nBytes s
  | .extract | .reveal => capacity s ≤ 8 * nBytes s

/-- The state a command that passes its checks leaves. -/
def commandResult (i : Instr) (s : State) : State :=
  match i with
  | .fenc => complete false false false (writeBits (frame (messageBytes s)) s)
  | .fdec =>
    complete (deframe (s.bit.take s.bitLen.toNat)).2 false false
      (writeMessage (deframe (s.bit.take s.bitLen.toNat)).1 s)
  | .embed =>
    complete false (truncFlag s.bitLen.toNat (capacity s)) false
      (embedBits ((s.bit.take s.bitLen.toNat).take (capacity s)) s)
  | .extract => complete false false false (writeBits (extractedBits s) s)
  | .hide =>
    complete false (truncFlag (frame (messageBytes s)).length (capacity s)) false
      (embedBits ((frame (messageBytes s)).take (capacity s)) (writeBits (frame (messageBytes s)) s))
  | .reveal =>
    complete (deframe ((overwrite (extractedBits s) s.bit).take (capacity s))).2 false false
      (writeMessage (deframe ((overwrite (extractedBits s) s.bit).take (capacity s))).1 (writeBits (extractedBits s) s))
  | .capcheck =>
    complete false false (fitsFlag (requiredPixels s.msgLen.toNat) (capacity s))
      { s with reqPix := BitVec.ofNat 32 (requiredPixels s.msgLen.toNat) }

theorem messageOperand_cases (s : State) :
    (∃ r, r.err ≠ .none ∧ messageOperand s = .error r) ∨
      (s.msgLen.toNat ≤ nBytes s - 1 ∧ messageOperand s = .ok (messageBytes s)) := by
  by_cases h : s.msgLen.toNat ≤ nBytes s - 1
  · cases hf : firstIllegal (messageWords s) with
    | none => exact .inr ⟨h, by simp [messageOperand, messageLength_ok h, hf]⟩
    | some i => exact .inl ⟨⟨.encodingError, BitVec.ofNat 32 i⟩, by simp, by simp [messageOperand, messageLength_ok h, hf]⟩
  · exact .inl ⟨_, by simp, messageOperand_length (by omega)⟩

theorem bitOperand_cases (s : State) :
    (∃ r, r.err ≠ .none ∧ bitOperand s = .error r) ∨
      (s.bitLen.toNat ≤ 8 * nBytes s ∧ bitOperand s = .ok (s.bit.take s.bitLen.toNat)) := by
  by_cases h : s.bitLen.toNat ≤ 8 * nBytes s
  · exact .inr ⟨h, bitOperand_ok h⟩
  · exact .inl ⟨_, by simp, bitOperand_error (by omega)⟩

theorem gridBits_cases (s : State) :
    (∃ r, r.err ≠ .none ∧ gridBits s = .error r) ∨ (capacity s ≤ 8 * nBytes s ∧ gridBits s = .ok (extractedBits s)) := by
  by_cases h : capacity s ≤ 8 * nBytes s
  · exact .inr ⟨h, gridBits_ok h⟩
  · exact .inl ⟨_, by simp, gridBits_error (by omega)⟩

theorem capacityCheck_cases (len : Nat) (s : State) :
    (∃ r, r.err ≠ .none ∧ capacityCheck len s = .error r) ∨ capacityCheck len s = .ok () := by
  by_cases h : s.strict = true → len ≤ capacity s
  · exact .inr (capacityCheck_ok h)
  · obtain ⟨h1, h2⟩ := Classical.not_imp.mp h
    exact .inl ⟨_, by simp, capacityCheck_error h1 (by omega)⟩

/-- Everything a command can do: raise an error, or pass its checks and leave its result. -/
theorem exec_cases (i : Instr) (s : State) :
    (∃ r : Raised, r.err ≠ .none ∧ exec i s = .next (raise r.err r.info s)) ∨
      (commandGuard i s ∧ exec i s = .next (commandResult i s)) := by
  cases i with
  | fenc =>
    rcases messageOperand_cases s with ⟨r, hr, h⟩ | ⟨hg, h⟩
    · exact .inl ⟨r, hr, by simp [exec, execFenc, h]⟩
    · exact .inr ⟨hg, by simp [exec, execFenc, h, commandResult]⟩
  | fdec =>
    rcases bitOperand_cases s with ⟨r, hr, h⟩ | ⟨hg, h⟩
    · exact .inl ⟨r, hr, by simp [exec, execFdec, h]⟩
    · exact .inr ⟨hg, by simp [exec, execFdec, h, commandResult]⟩
  | embed =>
    rcases bitOperand_cases s with ⟨r, hr, h⟩ | ⟨hg, h⟩
    · exact .inl ⟨r, hr, by simp [exec, execEmbed, h]⟩
    · rcases capacityCheck_cases s.bitLen.toNat s with ⟨r, hr, hc⟩ | hc
      · exact .inl ⟨r, hr, by simp [exec, execEmbed, h, hc]⟩
      · exact .inr ⟨hg, by simp only [exec, execEmbed, h, hc, commandResult]⟩
  | extract =>
    rcases gridBits_cases s with ⟨r, hr, h⟩ | ⟨hg, h⟩
    · exact .inl ⟨r, hr, by simp [exec, execExtract, h]⟩
    · exact .inr ⟨hg, by simp [exec, execExtract, h, commandResult]⟩
  | hide =>
    rcases messageOperand_cases s with ⟨r, hr, h⟩ | ⟨hg, h⟩
    · exact .inl ⟨r, hr, by simp [exec, execHide, h]⟩
    · rcases capacityCheck_cases (frame (messageBytes s)).length s with ⟨r, hr, hc⟩ | hc
      · exact .inl ⟨r, hr, by simp [exec, execHide, h, hc]⟩
      · exact .inr ⟨hg, by simp only [exec, execHide, h, hc, commandResult]⟩
  | reveal =>
    rcases gridBits_cases s with ⟨r, hr, h⟩ | ⟨hg, h⟩
    · exact .inl ⟨r, hr, by simp [exec, execReveal, h]⟩
    · exact .inr ⟨hg, by simp [exec, execReveal, h, commandResult]⟩
  | capcheck =>
    by_cases h : s.msgLen.toNat ≤ nBytes s - 1
    · exact .inr ⟨h, capcheck_ok h⟩
    · exact .inl ⟨⟨.lengthError, s.msgLen⟩, by simp, capcheck_length (by omega)⟩

end Sys2Proof.Machine
end

