-- ==== Sys2Proof/Laws/HostProgram.lean ====
section
/-! SUPPORT. The step: what a write to the port, and each host operation, can do. -/

namespace Sys2Proof.Machine

theorem memWrite_cmd (w : Word) (s : State) : memWrite 0x3#32 w s = runCommand w s := by
  simp [memWrite, portTarget, registerTarget, msgBase]

/-- A word that decodes to a command is that command's word. -/
theorem eq_encode_of_decode {w : Word} {i : Instr} (h : decode w = .ok i) : w = encode i := by
  unfold decode at h
  split at h
  · cases h
  · rename_i hz
    simp only [ne_eq, not_not] at hz
    have hw : w = 0#24 ++ fieldOp w := by
      have hsplit : w = fieldZ w ++ fieldOp w := by
        apply BitVec.eq_of_getLsbD_eq
        intro j hj
        rw [show (fieldZ w ++ fieldOp w).getLsbD j = if j < 8 then (fieldOp w).getLsbD j else (fieldZ w).getLsbD (j - 8)
          from BitVec.getLsbD_append]
        split
        · rename_i h8; simp [h8, fieldOp]
        · simp [fieldZ, show 8 + (j - 8) = j by omega]; intro; omega
      rw [hz] at hsplit
      exact hsplit
    split at h
    · rename_i j hj
      cases h
      rw [hw]
      unfold encode
      congr 1
      unfold opcodeInstr at hj
      repeat' split at hj
      all_goals (cases hj; try assumption)
    · split at h <;> cases h

/-- Everything a write to `CMD` can do. -/
theorem runCommand_cases (w : Word) (s : State) :
    (∃ r : Raised, r.err ≠ .none ∧ runCommand w s = .next (raise r.err r.info s)) ∨
      ∃ i, w = encode i ∧ commandGuard i s ∧ runCommand w s = .next (commandResult i s) := by
  unfold runCommand
  cases hd : decode w with
  | error e => exact .inl ⟨⟨.illegalCommand, w⟩, by simp, rfl⟩
  | ok i =>
    rcases exec_cases i s with h | h
    · exact .inl h
    · exact .inr ⟨i, eq_encode_of_decode hd, h⟩

/-- Everything a host write can do (R32). -/
theorem memWrite_cases (a v : Word) (s : State) :
    (memWrite a v s = .next s) ∨
    (a = 0x2#32 ∧ memWrite a v s = .next { s with strict := v.getLsbD 0 }) ∨
    (a = 0x3#32 ∧ memWrite a v s = runCommand v s) ∨
    (a = 0x4#32 ∧ v.getLsbD 16 = true ∧ memWrite a v s = .next (clearSticky s)) ∨
    (a = 0x6#32 ∧ memWrite a v s = .next { s with msgLen := v }) ∨
    (a = 0x7#32 ∧ memWrite a v s = .next { s with bitLen := v }) ∨
    (∃ i, i < nBytes s ∧ a.toNat = msgBase + i ∧ memWrite a v s = .next { s with msg := s.msg.set i v }) ∨
    ∃ j, j < 8 * nBytes s ∧ a.toNat = bitBase + j ∧ memWrite a v s = .next { s with bit := s.bit.set j (v.getLsbD 0) } := by
  cases h : portTarget (nBytes s) a with
  | ctrl => exact .inr (.inl ⟨portTarget_register (k := 2) (by omega) h, by simp [memWrite, h]⟩)
  | cmd => exact .inr (.inr (.inl ⟨portTarget_register (k := 3) (by omega) h, by simp [memWrite, h]⟩))
  | status =>
    cases hv : v.getLsbD 16 with
    | true => exact .inr (.inr (.inr (.inl ⟨portTarget_register (k := 4) (by omega) h, rfl, by simp only [memWrite, h, hv]; rfl⟩)))
    | false => exact .inl (by simp only [memWrite, h, hv]; rfl)
  | msgLen => exact .inr (.inr (.inr (.inr (.inl ⟨portTarget_register (k := 6) (by omega) h, by simp [memWrite, h]⟩))))
  | bitLen =>
    exact .inr (.inr (.inr (.inr (.inr (.inl ⟨portTarget_register (k := 7) (by omega) h, by simp [memWrite, h]⟩)))))
  | msg i =>
    obtain ⟨h1, h2⟩ := (portTarget_eq_msg a i).mp h
    exact .inr (.inr (.inr (.inr (.inr (.inr (.inl ⟨i, h1, h2, by simp [memWrite, h]⟩))))))
  | bit j =>
    obtain ⟨h1, h2⟩ := (portTarget_eq_bit (nBytes_lt s) a j).mp h
    exact .inr (.inr (.inr (.inr (.inr (.inr (.inr ⟨j, h1, h2, by simp [memWrite, h]⟩))))))
  | id => exact .inl (by simp [memWrite, h])
  | caps => exact .inl (by simp [memWrite, h])
  | errInfo => exact .inl (by simp [memWrite, h])
  | gridW => exact .inl (by simp [memWrite, h])
  | gridH => exact .inl (by simp [memWrite, h])
  | availPix => exact .inl (by simp [memWrite, h])
  | reqPix => exact .inl (by simp [memWrite, h])
  | reserved => exact .inl (by simp [memWrite, h])

/-- The step, the host's next operation known. -/
theorem step_of_op {s : State} {op : HostOp} (h : s.prog[s.hpc]? = some op) : step s = runHostOp op s := by
  simp [step, hostStep, h]

/-- The step at a host write: the write of the port, the host having moved on (R32, R54). -/
theorem runHostOp_wr (a v : Word) (s : State) : runHostOp (.wr a v) s = memWrite a v (advance s) := rfl

/-- The step once the host's program is over. -/
theorem step_of_none {s : State} (h : s.prog[s.hpc]? = none) : step s = .next s := by
  simp [step, hostStep, h]

end Sys2Proof.Machine
end

