-- ==== Sys2Proof/Laws/PerInstr.lean ====
section
/-! SUPPORT. Facts about each command as syntax, one lemma for each. -/

namespace Sys2Proof.Laws.Encoding

/-- A command is well formed, its word is its opcode below a zero `Z`, and the table's decoder reads it back from the
word. -/
def Statement (i : Instr) : Prop :=
  i.WellFormed ∧ fieldZ (encode i) = 0 ∧ fieldOp (encode i) = opcode i ∧
    decodeTableWord 32 (encode i).toNat = some i

theorem fenc : Statement .fenc := by unfold Statement; decide

theorem fdec : Statement .fdec := by unfold Statement; decide

theorem embed : Statement .embed := by unfold Statement; decide

theorem extract : Statement .extract := by unfold Statement; decide

theorem hide : Statement .hide := by unfold Statement; decide

theorem reveal : Statement .reveal := by unfold Statement; decide

theorem capcheck : Statement .capcheck := by unfold Statement; decide

end Sys2Proof.Laws.Encoding
end

