-- ==== Sys2Proof/Tests/Slice0.lean ====
section
/-! SUPPORT. The model's own tests. Expected values come from spec/95_test_vectors.md (named V-...) or are read off the
rules named; after them, for every obligation with hypotheses, a state and operands that meet them. -/

namespace Sys2Proof.Tests

open Sys2Proof Sys2Proof.Machine

/-! ## Helpers -/

/-- Instance `N_BYTES = 4`, `HAS_ALPHA = 1` just after reset, with all buffer entries 0, an empty grid and no program:
one of the states the free values of R102 allow. -/
def base : State :=
  { State.fresh Config.sample Grid.empty with msg := List.replicate 4 0, bit := List.replicate 32 false }

/-- `MSG[]` begins with `codes` and `MSG_LEN` is their number. -/
def withMessage (codes : List Word) (s : State) : State :=
  { s with msg := overwrite codes s.msg, msgLen := BitVec.ofNat 32 codes.length }

/-- The bits of a numeral, most significant first. -/
def bitsOf (n v : Nat) : List Bool := (List.range n).map fun j => v.testBit (n - 1 - j)

/-- `BIT[]` begins with the `n` bits of `v`, most significant first, and `BIT_LEN` is `n`. -/
def withBitString (n v : Nat) (s : State) : State :=
  { s with bit := overwrite (bitsOf n v) s.bit, bitLen := BitVec.ofNat 32 n }

/-- A `w` by `h` grid whose pixel of raster index `k` has blue `blue k`; the other channels are 0. -/
def blueGrid (w h : Nat) (blue : Nat → Byte) : Grid :=
  buildGrid true (BitVec.ofNat 16 w) (BitVec.ofNat 16 h)
    ((List.range (w * h)).map fun k => (pixKey (k / h) (k % h) .blue, blue k))

/-- `s` with a grid of `blueGrid` attached. -/
def withBlue (w h : Nat) (blue : Nat → Byte) (s : State) : State := { s with grid := blueGrid w h blue }

/-- `s` with a grid of the given size whose bytes are all 0. -/
def withSize (w h : Nat) (s : State) : State :=
  { s with grid := { w := BitVec.ofNat 16 w, h := BitVec.ofNat 16 h, cells := [] } }

/-- The blue values in raster order. -/
def blues (g : Grid) : List Byte :=
  (List.range (g.w.toNat * g.h.toNat)).map fun k => g.channel (k / g.h.toNat) (k % g.h.toNat) .blue

/-- The outcome is a next state with `p`. -/
def nextWith (o : Host.Outcome State Fault Refusal) (p : State → Bool) : Bool :=
  match o with
  | .next t => p t
  | .fault _ => false
  | .refused _ => false

/-- The next state of an outcome, `base` where there is none. -/
def nextOf (o : Host.Outcome State Fault Refusal) : State :=
  match o with
  | .next t => t
  | .fault _ => base
  | .refused _ => base

/-- `STATUS` and `ERR_INFO` read as given. -/
def reports (status info : Word) (t : State) : Bool :=
  decide (memRead t 0x4#32 = status) && decide (memRead t 0x5#32 = info)

/-- A state whose host's next operation is `op`. -/
def about (op : HostOp) (s : State) : State := { s with prog := [op], hpc := 0 }

theorem exec_eq_next (i : Instr) (s : State) : exec i s = .next (nextOf (exec i s)) := by
  rcases exec_cases i s with ⟨r, -, h⟩ | ⟨-, h⟩ <;> rw [h] <;> rfl

theorem runCommand_eq_next (w : Word) (s : State) : runCommand w s = .next (nextOf (runCommand w s)) := by
  rcases runCommand_cases w s with ⟨r, -, h⟩ | ⟨i, -, -, h⟩ <;> rw [h] <;> rfl

/-! ## WellFormed refuses ill-formed terms -/

theorem test_wellFormed_refuses_zero_entries : ¬ ({ nBytes := 0, hasAlpha := true } : Config).WellFormed := by decide

theorem test_wellFormed_accepts_limits :
    ({ nBytes := 1, hasAlpha := false } : Config).WellFormed ∧
      ({ nBytes := 0xFFFFFF#24, hasAlpha := true } : Config).WellFormed := by decide

theorem test_cells_refuse_unsorted : ¬ cellsCanonical [(6, 1#8), (2, 1#8)] := by decide

theorem test_cells_refuse_repeat : ¬ cellsCanonical [(2, 1#8), (2, 5#8)] := by decide

theorem test_cells_refuse_unlisted_value : ¬ cellsCanonical [(2, 0#8)] := by decide

theorem test_grid_refuses_cell_outside : ¬ Grid.WellFormed true { w := 1, h := 1, cells := [(6, 1#8)] } := by decide

theorem test_grid_refuses_alpha_without_alpha :
    ¬ Grid.WellFormed false { w := 1, h := 1, cells := [(3, 1#8)] } ∧
      Grid.WellFormed true { w := 1, h := 1, cells := [(3, 1#8)] } := by decide

theorem test_instr_wellFormed : ∀ i : Instr, i.WellFormed := by
  intro i
  cases i <;> trivial

/-! ## Decoding (R49, R50): words written bit by bit, `Z` above `OP` -/

theorem test_decode_fenc : decode 0b000000000000000000000000_00000001#32 = .ok .fenc := by decide

theorem test_decode_fdec : decode 0b000000000000000000000000_00000010#32 = .ok .fdec := by decide

theorem test_decode_embed : decode 0b000000000000000000000000_00000011#32 = .ok .embed := by decide

theorem test_decode_extract : decode 0b000000000000000000000000_00000100#32 = .ok .extract := by decide

theorem test_decode_hide : decode 0b000000000000000000000000_00000101#32 = .ok .hide := by decide

theorem test_decode_reveal : decode 0b000000000000000000000000_00000110#32 = .ok .reveal := by decide

theorem test_decode_capcheck : decode 0b000000000000000000000000_00000111#32 = .ok .capcheck := by decide

/-- V-P1 to V-P4, and a word whose low byte is a legal opcode below a `Z` with its top bit set. -/
theorem test_decode_illegal :
    decode 0x00000000#32 = .error .zeroOp ∧ decode 0x00000008#32 = .error .unassignedOp ∧
      decode 0x000000FF#32 = .error .unassignedOp ∧ decode 0x00000101#32 = .error .nonzeroZ ∧
      decode 0xFFFFFFFF#32 = .error .nonzeroZ ∧ decode 0x80000005#32 = .error .nonzeroZ := by decide

/-- The table's words, and a number wider than a word. -/
theorem test_decodeTableWord :
    decodeTableWord 32 7 = some .capcheck ∧ decodeTableWord 32 8 = none ∧ decodeTableWord 64 (2 ^ 32 + 1) = none ∧
      decodeTableWord 8 6 = some .reveal := by decide

/-! ## The commands -/

/-- V-F5: 0x80 puts its 1 first. -/
theorem test_fenc_msb_first :
    nextWith (exec .fenc (withMessage [0x80, 0x01] base)) (fun t =>
      decide (t.bit.take 24 = bitsOf 24 0b100000000000000100000000 ∧ t.bitLen = 24) && reports 0x0 0x0 t) = true := by
  decide

/-- V-F6, V-F8, V-F10: the lowest index, and the length check first. -/
theorem test_fenc_errors :
    nextWith (exec .fenc (withMessage [0x41, 0x100] base)) (reports 0x10001 1) = true ∧
      nextWith (exec .fenc (withMessage [0x100, 0, 0, 0] base)) (reports 0x10003 4) = true := by decide

/-- V-D9: entries beyond the result keep their values. -/
theorem test_fdec_keeps_later_entries :
    nextWith (exec .fdec (withBitString 16 0b0100001000000000 (withMessage [0x7A, 0x7B, 0x7C] base))) (fun t =>
      decide (t.msg = [0x42, 0x7B, 0x7C, 0] ∧ t.msgLen = 1) && reports 0x100 0 t) = true := by decide

/-- V-D5, V-D8: a partial group is dropped; a length past the buffer is refused. -/
theorem test_fdec_partial_group_and_length :
    nextWith (exec .fdec (withBitString 12 0b010000010100 base)) (fun t =>
      decide (t.msg.take 1 = [0x41] ∧ t.msgLen = 1) && reports 0 0 t) = true ∧
      nextWith (exec .fdec { base with bitLen := 33 }) (reports 0x10003 33) = true := by decide

/-- V-E8: column-major order on a grid that is not square. -/
theorem test_embed_column_major :
    nextWith (exec .embed (withBitString 6 0b010000 (withBlue 3 2 (fun k => BitVec.ofNat 8 (k / 2 * 16 + k % 2)) base)))
      (fun t => decide (blues t.grid = [0x00, 0x01, 0x10, 0x10, 0x20, 0x20]) && reports 0 0 t) = true := by decide

/-- V-E3, V-E4: truncation, and refusal in strict mode. -/
theorem test_embed_overflow :
    nextWith (exec .embed (withBitString 8 0b10110011 (withBlue 2 2 (fun _ => 0x80) base))) (fun t =>
      decide (blues t.grid = [0x81, 0x80, 0x81, 0x81]) && reports 0x200 0 t) = true ∧
    nextWith (exec .embed (withBitString 8 0b10110011 (withBlue 2 2 (fun _ => 0x80) { base with strict := true }))) (fun t =>
      decide (blues t.grid = [0x80, 0x80, 0x80, 0x80]) && reports 0x10002 8 t) = true := by decide

/-- V-X1. -/
theorem test_extract_low_bits :
    nextWith (exec .extract (withBlue 3 3 (fun k => BitVec.ofNat 8 (16 + k)) base)) (fun t =>
      decide (t.bit.take 9 = bitsOf 9 0b010101010 ∧ t.bitLen = 9) && reports 0 0 t) = true := by decide

/-- V-X3: `BIT[]` is too small for the grid. -/
theorem test_extract_length : nextWith (exec .extract (withSize 6 6 base)) (reports 0x10003 36) = true := by decide

/-- V-C3: overflow with `STRICT = 0`. -/
theorem test_hide_truncates :
    nextWith (exec .hide (withMessage [0x48, 0x69] (withBlue 4 5 (fun _ => 0x55) base))) (fun t =>
      decide (blues t.grid = [0x54, 0x55, 0x54, 0x54, 0x55, 0x54, 0x54, 0x54, 0x54, 0x55, 0x55, 0x54, 0x55, 0x54, 0x54,
        0x55, 0x54, 0x54, 0x54, 0x54] ∧ t.bitLen = 24 ∧ t.bit.take 24 = bitsOf 24 0b010010000110100100000000) &&
        reports 0x200 0 t) = true := by decide +kernel

/-- V-C6, V-C7: capacity in strict mode, after the code words. -/
theorem test_hide_strict_errors :
    nextWith (exec .hide (withMessage [0x48, 0x69] (withSize 4 5 { base with strict := true }))) (fun t =>
      decide (t.bitLen = 0 ∧ t.bit = base.bit ∧ t.grid.cells = []) && reports 0x10002 24 t) = true ∧
      nextWith (exec .hide (withMessage [0x41, 300, 0x42] (withSize 2 2 { base with strict := true })))
        (reports 0x10001 1) = true := by decide

/-- V-C4 from V-C3's grid: two whole groups, the rest dropped, no terminator. -/
theorem test_reveal_without_terminator :
    nextWith (exec .reveal (withBlue 4 5 (fun k => if k ∈ [1, 4, 9, 10, 12, 15] then 0x55 else 0x54) base)) (fun t =>
      decide (t.msg.take 2 = [0x48, 0x69] ∧ t.msgLen = 2 ∧ t.bitLen = 20) && reports 0 0 t) = true := by
  decide +kernel

/-- V-C9, V-C10: even blue values, with and without a whole group. -/
theorem test_reveal_even_grid :
    nextWith (exec .reveal (withBlue 3 3 (fun _ => 0x80) base)) (fun t => decide (t.msgLen = 0) && reports 0x100 0 t) = true ∧
      nextWith (exec .reveal (withBlue 2 3 (fun _ => 0x80) base)) (fun t => decide (t.msgLen = 0) && reports 0 0 t) = true := by
  decide

/-- V-K1, V-K2. -/
theorem test_capcheck_fits :
    nextWith (exec .capcheck (withSize 5 5 { base with msgLen := 2 })) (fun t =>
      decide (memRead t 0xB#32 = 24) && reports 0x400 0 t) = true ∧
      nextWith (exec .capcheck (withSize 5 5 { base with msgLen := 3 })) (fun t =>
        decide (memRead t 0xB#32 = 32) && reports 0 0 t) = true := by decide

/-- V-K3, V-K4. -/
theorem test_capcheck_empty_and_length :
    nextWith (exec .capcheck base) (fun t => decide (t.reqPix = 0) && reports 0x400 0 t) = true ∧
      nextWith (exec .capcheck { base with msgLen := 4, reqPix := 24 }) (fun t =>
        decide (t.reqPix = 24) && reports 0x10003 4 t) = true := by decide

/-! ## The host port and the step -/

/-- V-P10, V-P11, V-P12, V-P17. -/
theorem test_port_constants :
    memRead base 0x1#32 = 0x01000004#32 ∧ memRead base 0x0#32 = 0x4C534231#32 ∧ memRead base 0xC#32 = 0 ∧
      memRead { base with msg := [1, 2, 3, 4] } 0x01000004#32 = 0 ∧ memRead base 0x08000020#32 = 0 ∧
      memRead (withSize 65535 65535 base) 0xA#32 = 0xFFFE0001#32 := by decide

/-- V-P6, V-P7, V-P8, V-P9. -/
theorem test_port_write_then_read :
    nextWith (memWrite 0x2#32 0xFFFFFFFF#32 base) (fun t => decide (memRead t 0x2#32 = 1)) = true ∧
      nextWith (memWrite 0x08000000#32 0xFFFFFFFE#32 base) (fun t => decide (memRead t 0x08000000#32 = 0)) = true ∧
      nextWith (memWrite 0x08000000#32 0x3#32 base) (fun t => decide (memRead t 0x08000000#32 = 1)) = true ∧
      nextWith (memWrite 0x01000000#32 0xDEADBEEF#32 base) (fun t => decide (memRead t 0x01000000#32 = 0xDEADBEEF#32)) =
        true := by decide

/-- V-P14, V-P15, V-P16, V-P13. -/
theorem test_port_ignored_writes :
    nextWith (memWrite 0x4#32 0xFFFFFFFF#32 (raise .encodingError 1 base)) (reports 0x1 1) = true ∧
      nextWith (memWrite 0x4#32 0x0#32 (raise .encodingError 1 base)) (reports 0x10001 1) = true ∧
      nextWith (memWrite 0x0#32 0x0#32 base) (fun t => decide (t = base)) = true ∧
      nextWith (memWrite 0x01000004#32 5#32 base) (fun t => decide (t = base)) = true := by decide

/-- V-P2, and V-P18: `STICKY` survives a success. -/
theorem test_port_commands :
    nextWith (memWrite 0x3#32 0x8#32 base) (reports 0x10004 8) = true ∧
      nextWith (memWrite 0x3#32 0x1#32 (raise .capacityExceeded 8 base)) (reports 0x10000 0) = true := by decide

/-- R54, and the branch of program P1, line 4. -/
theorem test_branch :
    nextWith (step (about (.brclr 0x4#32 10 7) (complete false false true base))) (fun t =>
      decide (t.hpc = 1 ∧ t.notes = [0x400])) = true ∧
      nextWith (step (about (.brset 0x4#32 10 7) (complete false false true base))) (fun t => decide (t.hpc = 7)) = true := by
  decide

/-- R54: the expansion of `LDMSG "Hi"` in program P1, line 2, and of `LDBITS "0 1"`. -/
theorem test_pseudo_forms :
    ldMsgText ['H', 'i'] = [.wr 0x01000000#32 0x48#32, .wr 0x01000001#32 0x69#32, .wr 0x6#32 2#32] ∧
      ldBits [false, true] = [.wr 0x08000000#32 0#32, .wr 0x08000001#32 1#32, .wr 0x7#32 2#32] ∧
      strictOp true = .wr 0x2#32 1#32 ∧ clrStickyOp = .wr 0x4#32 0x00010000#32 ∧
      commandOp .hide = .wr 0x3#32 5#32 := by decide

/-- A command placed by `withFetchWord` is what the next step runs; the reset state's free buffers play no part. -/
theorem test_withFetchWord_runs :
    ∀ k ∈ [1, 2, 3, 4, 5, 6, 7],
      nextWith (step (State.reset.withFetchWord 32 k)) (fun t => decide (t.status.err = .none ∧ t.hpc = 1)) = true := by
  decide

theorem test_withFetchWord_illegal :
    nextWith (step (State.reset.withFetchWord 32 0x101)) (reports 0x10004 0x101) = true := by decide

/-- Logs 10 and 19: a kept copy survives a write in place of the grid attached from it; the code of a character beyond ASCII. -/
theorem test_model_choices :
    nextWith (step (about (.wr 0x3#32 0x3#32) (withBitString 1 1
        { (nextOf (step (about (.attachCopy 0) { base with copies := [blueGrid 1 1 (fun _ => 0x80)] }))) with bitLen := 0 })))
      (fun t => decide (blues t.grid = [0x81] ∧ t.copies.map blues = [[0x80]])) = true ∧
      ldMsgText ['é', '€'] = [.wr 0x01000000#32 0xE9#32, .wr 0x01000001#32 0x20AC#32, .wr 0x6#32 2#32] := by decide

/-- R101, R103: what a reset step leaves of a used block. -/
theorem test_reset_step :
    nextWith (step (about .reset (withSize 5 5 (raise .lengthError 9 { base with strict := true, msgLen := 9, bitLen := 9 }))))
      (fun t => decide (t.strict = false ∧ t.msgLen = 0 ∧ t.bitLen = 0 ∧ memRead t 0xA#32 = 25) && reports 0 0 t) = true := by
  decide

theorem test_base_inv : base.Inv := by decide

/-! ## Witnesses: for every obligation with hypotheses, a state and operands that meet them -/

/-- `base` in strict mode. -/
def strictBase : State := { base with strict := true }

/-- The message "Hi" on a grid of 4 by 8 pixels with odd blue values. -/
def hiState : State := withMessage [0x48, 0x69] (withBlue 4 8 (fun _ => 0x81) base)

theorem witness_ResetSetsEveryRegister :
    justReset Config.sample Grid.empty State.reset ∧
      justReset Config.sample Grid.empty (nextOf (step (about .reset strictBase))) :=
  ⟨.inl rfl, .inr ⟨about .reset strictBase, rfl, rfl, rfl, rfl⟩⟩

theorem witness_ResetLeavesTheGridStore :
    (about .reset hiState).prog[(about .reset hiState).hpc]? = some .reset := by
  decide +kernel

theorem witness_ResetKeepsTheHost :
    (about .reset strictBase).prog[(about .reset strictBase).hpc]? = some .reset := by
  decide +kernel

theorem witness_ResetStateIsLegal :
    ({ nBytes := 0xFFFFFF#24, hasAlpha := false } : Config).WellFormed ∧
      Grid.WellFormed false { w := 1, h := 1, cells := [(0, 7#8), (2, 0x81#8)] } := by
  and_intros <;> decide +kernel

/-- The first and last entry of each window, the first and last address of each reserved range. -/
theorem witness_PortReadsRegistersAndBuffers :
    0 < base.cfg.nBytes.toNat ∧ 3 < base.cfg.nBytes.toNat ∧ 31 < 8 * base.cfg.nBytes.toNat ∧
      (0x0000000C ≤ (0x0000000C#32).toNat ∧ (0x00FFFFFF#32).toNat ≤ 0x00FFFFFF) ∧
      (0x01000000 + base.cfg.nBytes.toNat ≤ (0x01000004#32).toNat ∧ (0x07FFFFFF#32).toNat ≤ 0x07FFFFFF) ∧
      0x08000000 + 8 * base.cfg.nBytes.toNat ≤ (0x08000020#32).toNat ∧
      0x08000000 + 8 * base.cfg.nBytes.toNat ≤ (0xFFFFFFFF#32).toNat := by
  and_intros <;> decide +kernel

theorem witness_ReservedAddressesReadZeroAndIgnoreWrites :
    ∀ k ∈ [0x0000000C, 0x00FFFFFF, 0x01000004, 0x07FFFFFF, 0x08000020, 0xFFFFFFFF],
      0xB < (BitVec.ofNat 32 k).toNat ∧
        ¬ (0x01000000 ≤ (BitVec.ofNat 32 k).toNat ∧ (BitVec.ofNat 32 k).toNat < 0x01000000 + base.cfg.nBytes.toNat) ∧
        ¬ (0x08000000 ≤ (BitVec.ofNat 32 k).toNat ∧
          (BitVec.ofNat 32 k).toNat < 0x08000000 + 8 * base.cfg.nBytes.toNat) := by
  decide +kernel

/-- The reserved bits at the ends of their ranges. -/
theorem witness_ReadOnlyRegistersIgnoreWrites :
    (∀ b ∈ [1, 31], b < 32 ∧ 0 < b) ∧
      ∀ b ∈ [4, 7, 11, 15, 17, 31], b < 32 ∧ b ∉ [0, 1, 2, 3, 8, 9, 10, 16] := by
  and_intros <;> decide +kernel

theorem witness_HostWriteReadsBack :
    hiState.Inv ∧ 0 < nBytes hiState ∧ 3 < nBytes hiState ∧ 31 < 8 * nBytes hiState ∧
      (0x01000001#32) ≠ BitVec.ofNat 32 (0x01000000 + 0) ∧ (0x01000003#32) ≠ BitVec.ofNat 32 (0x08000000 + 31) := by
  and_intros <;> decide +kernel

/-- The words where the kinds of word meet. -/
theorem witness_DecodeAndEncodeAgree :
    Instr.hide.WellFormed ∧ decode 0x7#32 = .ok .capcheck ∧ decode 0x0#32 = .error .zeroOp ∧
      decode 0x8#32 = .error .unassignedOp ∧ decode 0xFF#32 = .error .unassignedOp ∧
      decode 0x100#32 = .error .nonzeroZ := ⟨trivial, by decide, by decide, by decide, by decide, by decide⟩

theorem witness_EveryOtherWordRaisesIllegalCommand :
    ∀ k ∈ [0x0, 0x8, 0x101, 0xFFFFFFFF], ¬ (1 ≤ (BitVec.ofNat 32 k).toNat ∧ (BitVec.ofNat 32 k).toNat ≤ 7) := by
  decide +kernel

theorem witness_StepRunsTheDecodedCommand :
    (about (.wr 0x3#32 0x5#32) hiState).prog[(about (.wr 0x3#32 0x5#32) hiState).hpc]? = some (.wr 0x3#32 0x5#32) ∧
      decode 0x5#32 = .ok .hide ∧
      (about (.wr 0x0800001F#32 1#32) base).prog[(about (.wr 0x0800001F#32 1#32) base).hpc]? =
        some (.wr 0x0800001F#32 1#32) ∧
      (about (.wr 0x3#32 0x8#32) base).prog[(about (.wr 0x3#32 0x8#32) base).hpc]? = some (.wr 0x3#32 0x8#32) := by
  and_intros <;> decide +kernel

theorem witness_HostReadHasNoSideEffect :
    (about (.rd 0x08000000#32) base).prog[(about (.rd 0x08000000#32) base).hpc]? = some (.rd 0x08000000#32) := by
  decide +kernel

theorem witness_HostControlFlow :
    (about (.brset 0x4#32 31 5) base).prog[(about (.brset 0x4#32 31 5) base).hpc]? = some (.brset 0x4#32 31 5) ∧
      (about (.brclr 0x4#32 0 5) base).prog[(about (.brclr 0x4#32 0 5) base).hpc]? = some (.brclr 0x4#32 0 5) ∧
      (about (.jmp 5) base).prog[(about (.jmp 5) base).hpc]? = some (.jmp 5) := by
  and_intros <;> decide +kernel

theorem witness_IdleAfterTheProgram :
    base.prog[base.hpc]? = none ∧ (about .halt base).prog[(about .halt base).hpc]? = some .halt := by
  and_intros <;> decide +kernel

/-- A 1 by 1 grid whose blue byte is described twice; its red byte is not described. -/
theorem witness_AttachReplacesTheGrid :
    (about (.attach 1 1 [(2, 5#8), (2, 7#8)]) base).prog[(about (.attach 1 1 [(2, 5#8), (2, 7#8)]) base).hpc]? =
        some (.attach 1 1 [(2, 5#8), (2, 7#8)]) ∧
      ([(2, 5#8), (2, 7#8)] : List Host.Cell) = [(2, 5#8)] ++ (2, 7#8) :: [] ∧
      keyInGrid base.cfg.hasAlpha 1 1 2 = true ∧ (∀ p ∈ ([] : List Host.Cell), p.1 ≠ 2) ∧
      ∀ p ∈ ([(2, 5#8), (2, 7#8)] : List Host.Cell), p.1 ≠ 0 := by
  and_intros <;> decide +kernel

theorem witness_CopiesAreKeptAndAttached :
    (about .copyGrid base).prog[(about .copyGrid base).hpc]? = some .copyGrid ∧
      (about (.attachCopy 0) { base with copies := [hiState.grid] }).prog[0]? = some (.attachCopy 0) ∧
      (about (.attachCopy 0) { base with copies := [hiState.grid] }).copies[0]? = some hiState.grid ∧
      (about (.attachCopy 1) { base with copies := [hiState.grid] }).prog[0]? = some (.attachCopy 1) ∧
      (about (.attachCopy 1) { base with copies := [hiState.grid] }).copies[1]? = none := by
  and_intros <;> decide +kernel

theorem witness_ErrorsArePrecise :
    runCommand 0x1#32 { base with msgLen := 4 } = .next (nextOf (runCommand 0x1#32 { base with msgLen := 4 })) ∧
      (nextOf (runCommand 0x1#32 { base with msgLen := 4 })).status.err ≠ .none :=
  ⟨runCommand_eq_next _ _, by decide⟩

theorem witness_CompletionClearsErrInfoAndKeepsSticky :
    runCommand 0x1#32 (raise .lengthError 9 base) = .next (nextOf (runCommand 0x1#32 (raise .lengthError 9 base))) ∧
      (nextOf (runCommand 0x1#32 (raise .lengthError 9 base))).status.err = .none :=
  ⟨runCommand_eq_next _ _, by decide⟩

/-- Each error, and its absence, at the edge of its condition. -/
theorem witness_ErrorsByPriority :
    base.Inv ∧ runCommand 0x8#32 base = .next (nextOf (runCommand 0x8#32 base)) ∧
      (nextOf (runCommand 0x0#32 base)).status.err = .illegalCommand ∧
      (nextOf (runCommand 0x8#32 base)).status.err = .illegalCommand ∧
      (nextOf (runCommand 0x1#32 { base with msgLen := 4 })).status.err = .lengthError ∧
      (nextOf (runCommand 0x1#32 { base with msgLen := 3 })).status.err = .none ∧
      (nextOf (runCommand 0x3#32 { base with bitLen := 33 })).status.err = .lengthError ∧
      (nextOf (runCommand 0x2#32 { base with bitLen := 32 })).status.err = .none ∧
      (nextOf (runCommand 0x6#32 (withSize 3 11 base))).status.err = .lengthError ∧
      (nextOf (runCommand 0x4#32 (withSize 4 8 base))).status.err = .none ∧
      (nextOf (runCommand 0x5#32 (withMessage [256] strictBase))).status.err = .encodingError ∧
      (nextOf (runCommand 0x3#32 (withSize 2 2 { strictBase with bitLen := 5 }))).status.err = .capacityExceeded ∧
      (nextOf (runCommand 0x3#32 (withSize 2 2 { strictBase with bitLen := 4 }))).status.err = .none ∧
      (nextOf (runCommand 0x5#32 (withMessage [255] (withSize 3 5 strictBase)))).status.err = .capacityExceeded ∧
      (nextOf (runCommand 0x5#32 (withMessage [255] (withSize 4 4 strictBase)))).status.err = .none ∧
      (nextOf (runCommand 0x5#32 strictBase)).status.err = .none :=
  ⟨test_base_inv, runCommand_eq_next _ _, by and_intros <;> decide +kernel⟩

theorem witness_LengthErrorsNameTheLength :
    nBytes base - 1 < ({ base with msgLen := 4 } : State).msgLen.toNat ∧
      8 * nBytes base < ({ base with bitLen := 33 } : State).bitLen.toNat ∧
      8 * nBytes base < (withSize 3 11 base).grid.w.toNat * (withSize 3 11 base).grid.h.toNat := by
  and_intros <;> decide +kernel

/-- The first and the last index a message can have. -/
theorem witness_EncodingErrorNamesTheLowestIndex :
    (withMessage [256, 0, 0] base).Inv ∧ (withMessage [256, 0, 0] base).msgLen.toNat ≤ nBytes base - 1 ∧
      lowestIllegal (withMessage [256, 0, 0] base) 0 ∧
      (withMessage [255, 0, 0xFFFFFFFF#32] base).Inv ∧ lowestIllegal (withMessage [255, 0, 0xFFFFFFFF#32] base) 2 := by
  and_intros <;> decide +kernel

/-- `EMBED` with 5 and 4 bits on 2 by 2 pixels, `HIDE` of one character on 15 and 16 pixels and of none, both modes. -/
theorem witness_CapacityExceededOnlyInStrictMode :
    (∀ s ∈ [withSize 2 2 { base with bitLen := 5 }, withSize 2 2 { strictBase with bitLen := 5 }],
      s.Inv ∧ s.bitLen.toNat ≤ 8 * nBytes s ∧ s.grid.w.toNat * s.grid.h.toNat < s.bitLen.toNat) ∧
    ((withSize 2 2 { strictBase with bitLen := 4 }).Inv ∧ (4#32).toNat ≤ 8 * nBytes base ∧
      (4#32).toNat ≤ (withSize 2 2 base).grid.w.toNat * (withSize 2 2 base).grid.h.toNat) ∧
    (∀ s ∈ [withMessage [255] (withSize 3 5 base), withMessage [255] (withSize 3 5 strictBase)],
      s.Inv ∧ s.msgLen.toNat ≤ nBytes s - 1 ∧ messageLegal s ∧ 0 < s.msgLen.toNat ∧
        s.grid.w.toNat * s.grid.h.toNat < 8 * (s.msgLen.toNat + 1)) ∧
    (∀ s ∈ [withMessage [255] (withSize 4 4 strictBase), strictBase],
      s.Inv ∧ s.msgLen.toNat ≤ nBytes s - 1 ∧ messageLegal s ∧
        (s.msgLen.toNat = 0 ∨ 8 * (s.msgLen.toNat + 1) ≤ s.grid.w.toNat * s.grid.h.toNat)) := by
  and_intros <;> decide +kernel

theorem witness_CapacityExceededOnlyInStrictMode_raised :
    exec .embed (withSize 2 2 { strictBase with bitLen := 5 }) =
        .next (nextOf (exec .embed (withSize 2 2 { strictBase with bitLen := 5 }))) ∧
      (nextOf (exec .embed (withSize 2 2 { strictBase with bitLen := 5 }))).status.err = .capacityExceeded :=
  ⟨exec_eq_next _ _, by decide⟩

theorem witness_FencFramesTheMessage :
    ({ base with msgLen := 4 } : State).Inv ∧ nBytes base - 1 < (4#32).toNat ∧
      lowestIllegal (withMessage [255, 0, 256] base) 2 ∧ (withMessage [255, 0, 256] base).Inv ∧
      (withMessage [255, 0, 256] base).msgLen.toNat ≤ nBytes base - 1 ∧
      (withMessage [255, 0, 1] base).Inv ∧ messageLegal (withMessage [255, 0, 1] base) ∧ messageLegal base := by
  and_intros <;> decide +kernel

theorem witness_FdecDeframesTheBits :
    ({ base with bitLen := 33 } : State).Inv ∧ 8 * nBytes base < (33#32).toNat ∧
      ({ base with bitLen := 32 } : State).Inv ∧ (32#32).toNat ≤ 8 * nBytes base := by
  and_intros <;> decide +kernel

theorem witness_EmbedWritesTheLowBlueBits :
    (∀ n ∈ [33, 32, 4], (withBlue 2 2 (fun _ => 0x80) { strictBase with bitLen := BitVec.ofNat 32 n }).Inv) ∧
      8 * nBytes base < (33#32).toNat ∧ (32#32).toNat ≤ 8 * nBytes base ∧
      (withBlue 2 2 (fun _ => 0x80) base).grid.w.toNat * (withBlue 2 2 (fun _ => 0x80) base).grid.h.toNat = (4#32).toNat ∧
      strictBase.strict = true := by
  and_intros <;> decide +kernel

theorem witness_ExtractReadsEveryPixel :
    (withSize 3 11 base).Inv ∧ 8 * nBytes base < (withSize 3 11 base).grid.w.toNat * (withSize 3 11 base).grid.h.toNat ∧
      hiState.Inv ∧ hiState.grid.w.toNat * hiState.grid.h.toNat = 8 * nBytes hiState := by
  and_intros <;> decide +kernel

/-- Each clause: the length 4; index 2 of 3; one character on 15 pixels in strict mode; on 16; and none. -/
theorem witness_HideFramesThenEmbeds :
    (({ base with msgLen := 4 } : State).Inv ∧ nBytes base - 1 < (4#32).toNat) ∧
    ((withMessage [255, 0, 256] base).Inv ∧ (withMessage [255, 0, 256] base).msgLen.toNat ≤ nBytes base - 1 ∧
      lowestIllegal (withMessage [255, 0, 256] base) 2) ∧
    ((withMessage [255] (withSize 3 5 strictBase)).Inv ∧ messageLegal (withMessage [255] (withSize 3 5 strictBase)) ∧
      0 < (withMessage [255] (withSize 3 5 strictBase)).msgLen.toNat ∧
      (withSize 3 5 strictBase).grid.w.toNat * (withSize 3 5 strictBase).grid.h.toNat < 8 * (1 + 1)) ∧
    ((withMessage [255] (withSize 4 4 strictBase)).Inv ∧ messageLegal (withMessage [255] (withSize 4 4 strictBase)) ∧
      8 * (1 + 1) ≤ (withSize 4 4 strictBase).grid.w.toNat * (withSize 4 4 strictBase).grid.h.toNat) ∧
    strictBase.Inv ∧ messageLegal strictBase ∧ ¬ 0 < strictBase.msgLen.toNat := by
  and_intros <;> decide +kernel

theorem witness_RevealExtractsThenDeframes :
    (withSize 3 11 base).Inv ∧ 8 * nBytes base < (withSize 3 11 base).grid.w.toNat * (withSize 3 11 base).grid.h.toNat ∧
      hiState.Inv ∧ hiState.grid.w.toNat * hiState.grid.h.toNat ≤ 8 * nBytes hiState := by
  and_intros <;> decide +kernel

theorem witness_CapcheckComparesRequiredWithAvailable :
    nBytes base - 1 < (4#32).toNat ∧ (3#32).toNat ≤ nBytes base - 1 ∧ hiState.Inv ∧
      hiState.msgLen.toNat ≤ nBytes hiState - 1 ∧ messageLegal hiState := by
  and_intros <;> decide +kernel

theorem witness_CapcheckComparesRequiredWithAvailable_then_hide :
    exec .capcheck hiState = .next (nextOf (exec .capcheck hiState)) ∧
      exec .hide { nextOf (exec .capcheck hiState) with strict := true } =
        .next (nextOf (exec .hide { nextOf (exec .capcheck hiState) with strict := true })) :=
  ⟨exec_eq_next _ _, exec_eq_next _ _⟩

theorem witness_ByteAndBitsAreInverse : 0 < 8 ∧ 7 < 8 := by
  and_intros <;> decide +kernel

theorem witness_FrameBitsAndLength :
    ([0x48#8, 0x69#8] : List Byte)[1]? = some 0x69#8 ∧ 7 < 8 ∧ 0 < ([0x48#8, 0x69#8] : List Byte).length := by
  and_intros <;> decide +kernel

theorem witness_DeframeReadsGroupsToTheTerminator :
    (deframe (bitsOf 9 0b010000011)).1[0]? = some 0x41#8 ∧
      (bitsOf 8 0b01000001).length % 8 = 0 ∧ (bitsOf 7 0b1111111).length < 8 ∧
      ∀ k < (bitsOf 9 0b010000011).length / 8,
        ((bitsOf 9 0b010000011).drop (8 * k)).take 8 ≠ List.replicate 8 false := by
  and_intros <;> decide +kernel

theorem witness_DeframeInvertsFrame :
    (deframe (bitsOf 16 0b0100000100000000)).2 = true ∧ (deframe (bitsOf 16 0b0100000100000000)).1[0]? = some 0x41#8 ∧
      0 < ([1#8, 255#8] : List Byte).length ∧ ∀ c ∈ ([1#8, 255#8] : List Byte), c ≠ 0 := by
  and_intros <;> decide +kernel

theorem witness_NulCharacterEndsTheMessage : ∀ c ∈ ([0x41#8] : List Byte), c ≠ 0 := by
  decide +kernel

theorem witness_RasterOrderIsColumnMajor : 5 < 3 * 2 ∧ 2 < 3 ∧ 1 < 2 := by
  and_intros <;> decide +kernel

theorem witness_ExtractAfterEmbedGivesTheBits :
    (∀ n ∈ [32, 24], ({ hiState with bitLen := BitVec.ofNat 32 n } : State).Inv ∧
      (BitVec.ofNat 32 n).toNat ≤ hiState.grid.w.toNat * hiState.grid.h.toNat) ∧
      hiState.grid.w.toNat * hiState.grid.h.toNat ≤ 8 * nBytes hiState ∧ 0 < (32#32).toNat ∧
      (24#32).toNat ≤ 31 ∧ 31 < hiState.grid.w.toNat * hiState.grid.h.toNat := by
  and_intros <;> decide +kernel

theorem witness_HideIsFencThenEmbed :
    hiState.Inv ∧ exec .hide hiState = .next (nextOf (exec .hide hiState)) ∧
      (nextOf (exec .hide hiState)).status.err = .none ∧
      (withMessage [255] (withSize 3 5 strictBase)).Inv ∧
      (nextOf (exec .hide (withMessage [255] (withSize 3 5 strictBase)))).status.err = .capacityExceeded :=
  ⟨by decide +kernel, exec_eq_next _ _, by decide +kernel, by decide, by decide⟩

theorem witness_RevealIsExtractThenFdec :
    exec .extract hiState = .next (nextOf (exec .extract hiState)) ∧
      (nextOf (exec .extract hiState)).status.err = .none ∧
      exec .extract (withSize 3 11 base) = .next (nextOf (exec .extract (withSize 3 11 base))) ∧
      (nextOf (exec .extract (withSize 3 11 base))).status.err ≠ .none :=
  ⟨exec_eq_next _ _, by decide +kernel, exec_eq_next _ _, by decide⟩

/-- Three characters: the frame fills the grid and `BIT[]` exactly. -/
theorem witness_HideThenRevealRoundTrip :
    (withMessage [1, 0x69, 255] hiState).Inv ∧ 1 ≤ ([1#8, 0x69#8, 255#8] : List Byte).length ∧
      ([1#8, 0x69#8, 255#8] : List Byte).length ≤ nBytes hiState - 1 ∧
      (∀ c ∈ ([1#8, 0x69#8, 255#8] : List Byte), c ≠ 0) ∧ (withMessage [1, 0x69, 255] hiState).msgLen.toNat = 3 ∧
      (∀ i < 3, (withMessage [1, 0x69, 255] hiState).msg[i]? =
        ([1#8, 0x69#8, 255#8] : List Byte)[i]?.map (BitVec.setWidth 32)) ∧
      8 * (3 + 1) ≤ hiState.grid.w.toNat * hiState.grid.h.toNat ∧
      hiState.grid.w.toNat * hiState.grid.h.toNat ≤ 8 * nBytes hiState := by
  and_intros <;> decide +kernel

theorem witness_EmptyMessageLeavesTheGrid :
    ({ hiState with msgLen := 0 } : State).Inv ∧ ({ hiState with msgLen := 0 } : State).msgLen = 0 ∧
      hiState.grid.w.toNat * hiState.grid.h.toNat ≤ 8 * nBytes hiState := by
  and_intros <;> decide +kernel

theorem witness_OverflowEmbedsThePrefix :
    (withMessage [255] (withSize 3 5 base)).Inv ∧ base.strict = false ∧
      (withMessage [255] (withSize 3 5 base)).msgLen.toNat ≤ nBytes base - 1 ∧
      messageLegal (withMessage [255] (withSize 3 5 base)) ∧ 0 < (withMessage [255] (withSize 3 5 base)).msgLen.toNat ∧
      (withSize 3 5 base).grid.w.toNat * (withSize 3 5 base).grid.h.toNat < 8 * (1 + 1) := by
  and_intros <;> decide +kernel

theorem witness_RevealOnGridsNeverWritten :
    hiState.Inv ∧ hiState.grid.w.toNat * hiState.grid.h.toNat ≤ 8 * nBytes hiState ∧
      (∀ k < hiState.grid.w.toNat * hiState.grid.h.toNat / 8, ∃ j < 8, lowBitAt hiState.grid (8 * k + j) = true) ∧
      (∀ s ∈ [withBlue 2 4 (fun _ => 0x80) base, withBlue 7 1 (fun _ => 0x80) base], s.Inv ∧
        s.grid.w.toNat * s.grid.h.toNat ≤ 8 * nBytes s ∧
        ∀ k < s.grid.w.toNat * s.grid.h.toNat, lowBitAt s.grid k = false) := by
  and_intros <;> decide +kernel

theorem witness_EveryStepKeepsTheStateLegal :
    (about (.jmp 3) hiState).Inv ∧ step (about (.jmp 3) hiState) = .next (nextOf (step (about (.jmp 3) hiState))) :=
  ⟨by decide +kernel, rfl⟩

theorem witness_EveryStepKeepsMemoryCanonical :
    gridsCanonical (about .copyGrid hiState) ∧
      step (about .copyGrid hiState) = .next (nextOf (step (about .copyGrid hiState))) :=
  ⟨by decide +kernel, rfl⟩

/-- A pixel, an address that is no blue byte of a pixel, and two commands other than `EMBED` and `HIDE`. -/
theorem witness_CommandsTouchOnlyLowBlueBits :
    hiState.Inv ∧ exec .fenc hiState = .next (nextOf (exec .fenc hiState)) ∧
      (3 < hiState.grid.w.toNat ∧ 7 < hiState.grid.h.toNat) ∧
      (∀ x < hiState.grid.w.toNat, ∀ y < hiState.grid.h.toNat, 1 ≠ pixKey x y .blue) ∧
      Instr.fenc ≠ .embed ∧ Instr.fenc ≠ .hide :=
  ⟨by decide +kernel, exec_eq_next _ _, by decide +kernel, by decide +kernel, by decide, by decide⟩

theorem witness_OnlyEmbedHideAndAttachChangeTheGrid :
    step (about (.attach 1 1 [(2, 5#8)]) base) = .next (nextOf (step (about (.attach 1 1 [(2, 5#8)]) base))) ∧
      (nextOf (step (about (.attach 1 1 [(2, 5#8)]) base))).grid ≠ (about (.attach 1 1 [(2, 5#8)]) base).grid :=
  ⟨rfl, by decide⟩

theorem witness_MessageEntriesAreStable :
    step (about (.wr 0x01000003#32 7#32) base) = .next (nextOf (step (about (.wr 0x01000003#32 7#32) base))) ∧
      (nextOf (step (about (.wr 0x01000003#32 7#32) base))).msg[3]? ≠ (about (.wr 0x01000003#32 7#32) base).msg[3]? :=
  ⟨rfl, by decide⟩

theorem witness_BitEntriesAreStable :
    step (about (.wr 0x0800001F#32 7#32) base) = .next (nextOf (step (about (.wr 0x0800001F#32 7#32) base))) ∧
      (nextOf (step (about (.wr 0x0800001F#32 7#32) base))).bit[31]? ≠ (about (.wr 0x0800001F#32 7#32) base).bit[31]? :=
  ⟨rfl, by decide⟩

theorem witness_StickyStaysUntilCleared :
    (raise .lengthError 9 base).status.sticky = true ∧
      step (about clrStickyOp (raise .lengthError 9 base)) =
        .next (nextOf (step (about clrStickyOp (raise .lengthError 9 base)))) ∧
      (nextOf (step (about clrStickyOp (raise .lengthError 9 base)))).status.sticky = false :=
  ⟨rfl, rfl, by decide⟩

theorem witness_RegistersChangeOnlyByTheirWriters :
    step (about (strictOp true) base) = .next (nextOf (step (about (strictOp true) base))) ∧
      (nextOf (step (about (strictOp true) base))).strict ≠ (about (strictOp true) base).strict ∧
      step (about (commandOp .capcheck) { base with msgLen := 1 }) =
        .next (nextOf (step (about (commandOp .capcheck) { base with msgLen := 1 }))) ∧
      (nextOf (step (about (commandOp .capcheck) { base with msgLen := 1 }))).reqPix ≠ 0 ∧
      (about (commandOp .capcheck) { base with msgLen := 1 }).reqPix = 0 :=
  ⟨rfl, by decide, rfl, by decide, rfl⟩

/-- The length registers changed by a host write and by a command; the registers every command writes, by an illegal word
and, for each flag, by the command that sets it. -/
theorem witness_RegistersChangeOnlyByTheirWriters_lengths_and_status :
    (nextOf (step (about (.wr 0x6#32 9#32) base))).msgLen ≠ base.msgLen ∧
      (nextOf (step (about (commandOp .fdec) (withBitString 8 0x41 base)))).msgLen ≠ base.msgLen ∧
      (nextOf (step (about (.wr 0x7#32 9#32) base))).bitLen ≠ base.bitLen ∧
      (nextOf (step (about (commandOp .fenc) (withMessage [1] base)))).bitLen ≠ base.bitLen ∧
      (nextOf (step (about (cmdRaw 0x9#32) base))).errInfo ≠ base.errInfo ∧
      (nextOf (step (about (cmdRaw 0x9#32) base))).status.err ≠ base.status.err ∧
      (nextOf (step (about (commandOp .fdec) (withBitString 8 0 base)))).status.term ≠ base.status.term ∧
      (nextOf (step (about (commandOp .embed) (withBitString 8 0 base)))).status.trunc ≠ base.status.trunc ∧
      (nextOf (step (about (commandOp .capcheck) base))).status.fits ≠ base.status.fits ∧
      (nextOf (step (about (cmdRaw 0x9#32) base))).status.sticky ≠ base.status.sticky := by decide

end Sys2Proof.Tests
end

section
/-! PROOFS. Every step keeps a legal state legal: each named update of the state keeps `State.Inv`, hence so does every
command, every host write and every host operation. -/

namespace Sys2Proof.Machine

/-! ### The named updates keep a state legal -/

theorem inv_goto {s : State} (hs : s.Inv) (k : Nat) : (goto k s).Inv := hs

theorem inv_advance {s : State} (hs : s.Inv) : (advance s).Inv := hs

theorem inv_noteRead {s : State} (hs : s.Inv) (a : Word) : (noteRead a s).Inv := hs

theorem inv_clearSticky {s : State} (hs : s.Inv) : (clearSticky s).Inv := hs

/-- An error leaves no flag set (R88). -/
theorem inv_raise {s : State} (hs : s.Inv) {e : ErrCode} (he : e ≠ .none) (info : Word) : (raise e info s).Inv := by
  obtain ⟨hcfg, hbuf, hgrids, -, hreq⟩ := hs
  exact ⟨hcfg, hbuf, hgrids, ⟨by simp, fun h => absurd h he, rfl, rfl, rfl⟩, hreq⟩

/-- A completion that sets at most one flag (R89). -/
theorem inv_complete {s : State} (hs : s.Inv) {t u f : Bool} (htu : (t && u) = false) (htf : (t && f) = false)
    (huf : (u && f) = false) : (complete t u f s).Inv := by
  obtain ⟨hcfg, hbuf, hgrids, -, hreq⟩ := hs
  exact ⟨hcfg, hbuf, hgrids, ⟨fun h => absurd rfl h, fun _ => rfl, htu, htf, huf⟩, hreq⟩

/-- Whatever keeps the sizes of the buffers may change their entries and the length registers. -/
theorem inv_of_buffers {s : State} (hs : s.Inv) {msg : List Word} {bit : List Bool} (hmsg : msg.length = s.msg.length)
    (hbit : bit.length = s.bit.length) (msgLen bitLen : Word) :
    ({ s with msg := msg, bit := bit, msgLen := msgLen, bitLen := bitLen } : State).Inv := by
  obtain ⟨hcfg, ⟨hm, hb⟩, hrest⟩ := hs
  exact ⟨hcfg, ⟨hmsg.trans hm, hbit.trans hb⟩, hrest⟩

theorem inv_writeBits {s : State} (hs : s.Inv) (bits : List Bool) : (writeBits bits s).Inv :=
  inv_of_buffers hs rfl (length_overwrite _ _) _ _

theorem inv_writeMessage {s : State} (hs : s.Inv) (m : List Byte) : (writeMessage m s).Inv :=
  inv_of_buffers hs (length_overwrite _ _) rfl _ _

theorem inv_attachGrid {s : State} (hs : s.Inv) {g : Grid} (hg : g.WellFormed s.cfg.hasAlpha) :
    (attachGrid g s).Inv := by
  obtain ⟨hcfg, hbuf, ⟨-, hcopies⟩, hrest⟩ := hs
  exact ⟨hcfg, hbuf, ⟨hg, hcopies⟩, hrest⟩

theorem inv_embedBits {s : State} (hs : s.Inv) (bits : List Bool) : (embedBits bits s).Inv := by
  have ⟨_, _, ⟨hgrid, _⟩, _⟩ := hs
  exact inv_attachGrid hs (embedFrom_wellFormed 0 bits hgrid)

theorem inv_attachKept {s : State} (hs : s.Inv) (k : Nat) : (attachKept k s).Inv := by
  have ⟨_, _, ⟨_, hcopies⟩, _⟩ := hs
  unfold attachKept
  split
  case h_1 g hg => exact inv_attachGrid hs (hcopies g (List.mem_of_getElem? hg))
  case h_2 => exact hs

theorem inv_copyGrid {s : State} (hs : s.Inv) : ({ s with copies := s.copies ++ [s.grid] } : State).Inv := by
  obtain ⟨hcfg, hbuf, ⟨hgrid, hcopies⟩, hrest⟩ := hs
  refine ⟨hcfg, hbuf, ⟨hgrid, fun g hg => ?_⟩, hrest⟩
  rcases List.mem_append.mp hg with hg | hg
  · exact hcopies g hg
  · exact List.mem_singleton.mp hg ▸ hgrid

/-- Reset draws buffers of the right size and leaves the grid store alone (R102, R103). -/
theorem inv_resetBlock {s : State} (hs : s.Inv) : (resetBlock s).Inv := by
  obtain ⟨hcfg, -, hgrids, -, -⟩ := hs
  exact ⟨hcfg, ⟨length_drawMsg _ _, length_drawBit _ _⟩, hgrids, by simp [statusConsistent, Status.reset], .inl rfl⟩

/-- The length `CAPCHECK` puts in `REQ_PIX` is that of a frame that fits in `BIT[]` (R76). -/
theorem inv_requiredPixels {s : State} (hs : s.Inv) (h : s.msgLen.toNat ≤ nBytes s - 1) :
    ({ s with reqPix := BitVec.ofNat 32 (requiredPixels s.msgLen.toNat) } : State).Inv := by
  obtain ⟨hcfg, hbuf, hgrids, hstatus, -⟩ := hs
  have hword : (BitVec.ofNat 32 (requiredPixels s.msgLen.toNat)).toNat = requiredPixels s.msgLen.toNat :=
    Nat.mod_eq_of_lt (requiredPixels_lt h)
  have hlegal : requiredPixels s.msgLen.toNat = 0 ∨ (16 ≤ requiredPixels s.msgLen.toNat ∧
      requiredPixels s.msgLen.toNat ≤ 8 * nBytes s ∧ requiredPixels s.msgLen.toNat % 8 = 0) := by
    have hfit := requiredPixels_le hcfg h
    by_cases hlen : s.msgLen.toNat = 0
    · exact .inl (if_pos hlen)
    · have hframe : requiredPixels s.msgLen.toNat = 8 * (s.msgLen.toNat + 1) := if_neg hlen
      omega
  rw [← hword] at hlegal
  exact ⟨hcfg, hbuf, hgrids, hstatus, hlegal⟩

/-! ### Commands, host writes and host operations keep a state legal -/

/-- A command that passes its checks writes buffers, grid and `REQ_PIX` as above and completes with at most one flag. -/
theorem inv_commandResult {s : State} (hs : s.Inv) {i : Instr} (hguard : commandGuard i s) :
    (commandResult i s).Inv := by
  cases i with
  | fenc => exact inv_complete (inv_writeBits hs _) rfl rfl rfl
  | fdec => exact inv_complete (inv_writeMessage hs _) (Bool.and_false _) (Bool.and_false _) rfl
  | embed => exact inv_complete (inv_embedBits hs _) rfl rfl (Bool.and_false _)
  | extract => exact inv_complete (inv_writeBits hs _) rfl rfl rfl
  | hide => exact inv_complete (inv_embedBits (inv_writeBits hs _) _) rfl rfl (Bool.and_false _)
  | reveal => exact inv_complete (inv_writeMessage (inv_writeBits hs _) _) (Bool.and_false _) (Bool.and_false _) rfl
  | capcheck => exact inv_complete (inv_requiredPixels hs hguard) rfl rfl rfl

theorem runCommand_keeps_inv {s t : State} {w : Word} (hs : s.Inv) (h : runCommand w s = .next t) : t.Inv := by
  rcases runCommand_cases w s with ⟨r, hr, hrun⟩ | ⟨i, -, hguard, hrun⟩ <;> cases hrun.symm.trans h
  · exact inv_raise hs hr r.info
  · exact inv_commandResult hs hguard

theorem memWrite_keeps_inv {s t : State} {a v : Word} (hs : s.Inv) (h : memWrite a v s = .next t) : t.Inv := by
  rcases memWrite_cases a v s with
    hw | ⟨-, hw⟩ | ⟨-, hw⟩ | ⟨-, -, hw⟩ | ⟨-, hw⟩ | ⟨-, hw⟩ | ⟨i, -, -, hw⟩ | ⟨j, -, -, hw⟩ <;> rw [hw] at h
  case inr.inr.inl => exact runCommand_keeps_inv hs h
  all_goals cases h
  · exact hs
  · exact hs
  · exact inv_clearSticky hs
  · exact hs
  · exact hs
  · exact inv_of_buffers hs List.length_set rfl _ _
  · exact inv_of_buffers hs rfl List.length_set _ _

theorem runHostOp_keeps_inv {s t : State} {op : HostOp} (hs : s.Inv) (h : runHostOp op s = .next t) : t.Inv := by
  cases op with
  | wr a v => exact memWrite_keeps_inv (inv_advance hs) h
  | rd a => cases h; exact inv_advance (inv_noteRead hs a)
  | brset a b l => cases h; exact inv_goto (inv_noteRead hs a) _
  | brclr a b l => cases h; exact inv_goto (inv_noteRead hs a) _
  | jmp l => cases h; exact inv_goto hs l
  | halt => cases h; exact hs
  | attach w h cells => cases h; exact inv_advance (inv_attachGrid hs (buildGrid_wellFormed _ _ _ _))
  | copyGrid => cases h; exact inv_advance (inv_copyGrid hs)
  | attachCopy k => cases h; exact inv_advance (inv_attachKept hs k)
  | reset => cases h; exact inv_advance (inv_resetBlock hs)

/-- Settles O47: a step is the host's next operation, or nothing once the program is over. -/
theorem everyStepKeepsTheStateLegal : Obligations.EveryStepKeepsTheStateLegal := by
  intro s t hs h
  cases hop : s.prog[s.hpc]? with
  | none => cases (step_of_none hop).symm.trans h; exact hs
  | some op => exact runHostOp_keeps_inv hs ((step_of_op hop).symm.trans h)

end Sys2Proof.Machine
end

section
/-! PROOFS. Every step keeps the grid memory in its canonical form. Only three updates touch the grid store: embedding
bits, attaching a grid and keeping a copy; every other update keeps grid, copies and `HAS_ALPHA` as they are. -/

namespace Sys2Proof.Machine

/-! ### The updates of the grid store -/

theorem gridsCanonical_attachGrid {s : State} (hs : gridsCanonical s) {g : Grid} (hg : g.WellFormed s.cfg.hasAlpha) :
    gridsCanonical (attachGrid g s) :=
  ⟨hg, hs.2⟩

theorem gridsCanonical_embedBits {s : State} (hs : gridsCanonical s) (bits : List Bool) :
    gridsCanonical (embedBits bits s) :=
  gridsCanonical_attachGrid hs (embedFrom_wellFormed 0 bits hs.1)

/-- A kept copy is canonical, and so is the grid attached from it. -/
theorem gridsCanonical_attachKept {s : State} (hs : gridsCanonical s) (k : Nat) : gridsCanonical (attachKept k s) := by
  unfold attachKept
  split
  case h_1 g hg => exact gridsCanonical_attachGrid hs (hs.2 g (List.mem_of_getElem? hg))
  case h_2 => exact hs

theorem gridsCanonical_copyGrid {s : State} (hs : gridsCanonical s) :
    gridsCanonical { s with copies := s.copies ++ [s.grid] } := by
  obtain ⟨hgrid, hcopies⟩ := hs
  refine ⟨hgrid, fun g hg => ?_⟩
  rcases List.mem_append.mp hg with hg | hg
  · exact hcopies g hg
  · exact List.mem_singleton.mp hg ▸ hgrid

/-! ### Commands, host writes and host operations -/

/-- Of the commands only `EMBED` and `HIDE` write the grid. -/
theorem gridsCanonical_commandResult {s : State} (hs : gridsCanonical s) (i : Instr) :
    gridsCanonical (commandResult i s) := by
  cases i with
  | embed => exact gridsCanonical_embedBits hs _
  | hide => exact gridsCanonical_embedBits (s := writeBits _ s) hs _
  | fenc | fdec | extract | reveal | capcheck => exact hs

theorem runCommand_keeps_gridsCanonical {s t : State} {w : Word} (hs : gridsCanonical s)
    (h : runCommand w s = .next t) : gridsCanonical t := by
  rcases runCommand_cases w s with ⟨r, -, hrun⟩ | ⟨i, -, -, hrun⟩ <;> cases hrun.symm.trans h
  · exact hs
  · exact gridsCanonical_commandResult hs i

theorem memWrite_keeps_gridsCanonical {s t : State} {a v : Word} (hs : gridsCanonical s)
    (h : memWrite a v s = .next t) : gridsCanonical t := by
  rcases memWrite_cases a v s with
    hw | ⟨-, hw⟩ | ⟨-, hw⟩ | ⟨-, -, hw⟩ | ⟨-, hw⟩ | ⟨-, hw⟩ | ⟨i, -, -, hw⟩ | ⟨j, -, -, hw⟩ <;> rw [hw] at h
  case inr.inr.inl => exact runCommand_keeps_gridsCanonical hs h
  all_goals cases h; exact hs

theorem runHostOp_keeps_gridsCanonical {s t : State} {op : HostOp} (hs : gridsCanonical s)
    (h : runHostOp op s = .next t) : gridsCanonical t := by
  cases op with
  | wr a v => exact memWrite_keeps_gridsCanonical (s := advance s) hs h
  | attach w h cells => cases h; exact gridsCanonical_attachGrid hs (buildGrid_wellFormed _ _ _ _)
  | copyGrid => cases h; exact gridsCanonical_copyGrid hs
  | attachCopy k => cases h; exact gridsCanonical_attachKept hs k
  | rd | brset | brclr | jmp | halt | reset => cases h; exact hs

/-- Settles O48: a step is the host's next operation, or nothing once the program is over. -/
theorem everyStepKeepsMemoryCanonical : Obligations.EveryStepKeepsMemoryCanonical := by
  intro s t hs h
  cases hop : s.prog[s.hpc]? with
  | none => cases (step_of_none hop).symm.trans h; exact hs
  | some op => exact runHostOp_keeps_gridsCanonical hs ((step_of_op hop).symm.trans h)

end Sys2Proof.Machine
end

section
/-! PROOFS. What a step can change in the block, register by register and entry by entry. `ChangedByWriters` lists, for
each of them, the host operations that may change it; every named update of the state is shown to respect the list, hence
so does every step, and the statements about single registers and entries are read off it. -/

namespace Sys2Proof.Machine

/-- The words of the commands that write `BIT[]` and `BIT_LEN`: `FENC`, `EXTRACT`, `HIDE` and `REVEAL` (R20, R22). -/
abbrev bitWriterWords : List Word := [0x00000001#32, 0x00000004#32, 0x00000005#32, 0x00000006#32]

/-- From `s` to `t` no parameter changed, and `op`, the host's next operation (if any), is a writer of every register and
buffer entry that did (10_state.md; 70_reset_and_hazards.md R102). -/
structure ChangedByWriters (op : Option HostOp) (s t : State) : Prop where
  cfg : t.cfg = s.cfg
  strict : t.strict = s.strict ∨ (∃ v, op = some (.wr 0x2#32 v)) ∨ op = some .reset
  reqPix : t.reqPix = s.reqPix ∨ op = some (.wr 0x3#32 0x00000007#32) ∨ op = some .reset
  msgLen : t.msgLen = s.msgLen ∨ (∃ v, op = some (.wr 0x6#32 v)) ∨ op = some (.wr 0x3#32 0x00000002#32) ∨
    op = some (.wr 0x3#32 0x00000006#32) ∨ op = some .reset
  bitLen : t.bitLen = s.bitLen ∨ (∃ v, op = some (.wr 0x7#32 v)) ∨
    (∃ w ∈ bitWriterWords, op = some (.wr 0x3#32 w)) ∨ op = some .reset
  report : (t.errInfo = s.errInfo ∧ t.status.err = s.status.err ∧ t.status.term = s.status.term ∧
      t.status.trunc = s.status.trunc ∧ t.status.fits = s.status.fits) ∨
    (∃ w, op = some (.wr 0x3#32 w)) ∨ op = some .reset
  sticky : t.status.sticky = s.status.sticky ∨ (∃ w, op = some (.wr 0x3#32 w)) ∨ (∃ v, op = some (.wr 0x4#32 v)) ∨
    op = some .reset
  stickyCleared : (s.status.sticky = true → t.status.sticky = true) ∨
    (∃ v : Word, v.getLsbD 16 = true ∧ op = some (.wr 0x4#32 v)) ∨ op = some .reset
  msg : ∀ i, t.msg[i]? = s.msg[i]? ∨ (∃ a v, op = some (.wr a v) ∧ i < nBytes s ∧ a.toNat = msgBase + i) ∨
    op = some (.wr 0x3#32 0x00000002#32) ∨ op = some (.wr 0x3#32 0x00000006#32) ∨ op = some .reset
  bit : ∀ j, t.bit[j]? = s.bit[j]? ∨ (∃ a v, op = some (.wr a v) ∧ j < 8 * nBytes s ∧ a.toNat = bitBase + j) ∨
    (∃ w ∈ bitWriterWords, op = some (.wr 0x3#32 w)) ∨ op = some .reset

namespace ChangedByWriters

theorem refl (op : Option HostOp) (s : State) : ChangedByWriters op s s where
  cfg := rfl
  strict := .inl rfl
  reqPix := .inl rfl
  msgLen := .inl rfl
  bitLen := .inl rfl
  report := .inl ⟨rfl, rfl, rfl, rfl, rfl⟩
  sticky := .inl rfl
  stickyCleared := .inl id
  msg _ := .inl rfl
  bit _ := .inl rfl

section
variable {op : Option HostOp} {s t : State}

/-! ### The named updates -/

/-- The host's position is no register. -/
theorem goto (h : ChangedByWriters op s t) (k : Nat) : ChangedByWriters op s (goto k t) := { h with }

theorem of_advance (h : ChangedByWriters op (advance s) t) : ChangedByWriters op s t := { h with }

theorem attachKept (h : ChangedByWriters op s t) (k : Nat) : ChangedByWriters op s (attachKept k t) := by
  unfold Machine.attachKept
  split
  · exact { h with }
  · exact h

theorem embedBits (h : ChangedByWriters op s t) (bits : List Bool) : ChangedByWriters op s (embedBits bits t) :=
  { h with }

/-- Reset is a writer of everything but the parameters (R101, R102). -/
theorem resetBlock (h : ChangedByWriters (some .reset) s t) : ChangedByWriters (some .reset) s (resetBlock t) where
  cfg := h.cfg
  strict := by simp
  reqPix := by simp
  msgLen := by simp
  bitLen := by simp
  report := by simp
  sticky := by simp
  stickyCleared := by simp
  msg := by simp
  bit := by simp

end

/-! ### What a command does -/

section
variable {w : Word} {s t : State}

theorem raise (h : ChangedByWriters (some (.wr 0x3#32 w)) s t) (e : ErrCode) (info : Word) :
    ChangedByWriters (some (.wr 0x3#32 w)) s (raise e info t) :=
  { h with report := .inr (.inl ⟨w, rfl⟩), sticky := .inr (.inl ⟨w, rfl⟩), stickyCleared := .inl fun _ => rfl }

theorem complete (h : ChangedByWriters (some (.wr 0x3#32 w)) s t) (term trunc fits : Bool) :
    ChangedByWriters (some (.wr 0x3#32 w)) s (complete term trunc fits t) :=
  { h with report := .inr (.inl ⟨w, rfl⟩) }

theorem writeBits (h : ChangedByWriters (some (.wr 0x3#32 w)) s t)
    (hw : w ∈ bitWriterWords) (bits : List Bool) :
    ChangedByWriters (some (.wr 0x3#32 w)) s (writeBits bits t) :=
  { h with bitLen := .inr (.inr (.inl ⟨w, hw, rfl⟩)), bit := fun _ => .inr (.inr (.inl ⟨w, hw, rfl⟩)) }

theorem writeMessage (h : ChangedByWriters (some (.wr 0x3#32 w)) s t) (hw : w = 0x00000002#32 ∨ w = 0x00000006#32)
    (m : List Byte) : ChangedByWriters (some (.wr 0x3#32 w)) s (writeMessage m t) := by
  rcases hw with rfl | rfl
  · exact { h with msgLen := .inr (.inr (.inl rfl)), msg := fun _ => .inr (.inr (.inl rfl)) }
  · exact { h with msgLen := .inr (.inr (.inr (.inl rfl))), msg := fun _ => .inr (.inr (.inr (.inl rfl))) }

end

theorem commandResult (i : Instr) (s : State) :
    ChangedByWriters (some (.wr 0x3#32 (encode i))) s (commandResult i s) := by
  have start := refl (some (.wr 0x3#32 (encode i))) s
  cases i with
  | fenc => exact (start.writeBits (by decide) _).complete _ _ _
  | fdec => exact (start.writeMessage (.inl rfl) _).complete _ _ _
  | embed => exact (start.embedBits _).complete _ _ _
  | extract => exact (start.writeBits (by decide) _).complete _ _ _
  | hide => exact ((start.writeBits (by decide) _).embedBits _).complete _ _ _
  | reveal => exact ((start.writeBits (by decide) _).writeMessage (.inr rfl) _).complete _ _ _
  | capcheck => exact { start with reqPix := .inr (.inl rfl), report := .inr (.inl ⟨_, rfl⟩) }

end ChangedByWriters

/-! ### Commands, host writes, host operations and steps -/

theorem runCommand_changedByWriters {w : Word} {s t : State} (h : runCommand w s = .next t) :
    ChangedByWriters (some (.wr 0x3#32 w)) s t := by
  rcases runCommand_cases w s with ⟨r, -, hrun⟩ | ⟨i, rfl, -, hrun⟩ <;> cases hrun.symm.trans h
  · exact (ChangedByWriters.refl _ s).raise r.err r.info
  · exact ChangedByWriters.commandResult i s

theorem memWrite_changedByWriters {a v : Word} {s t : State} (h : memWrite a v s = .next t) :
    ChangedByWriters (some (.wr a v)) s t := by
  have start := ChangedByWriters.refl (some (.wr a v)) s
  rcases memWrite_cases a v s with
    hw | ⟨rfl, hw⟩ | ⟨rfl, hw⟩ | ⟨rfl, hv, hw⟩ | ⟨rfl, hw⟩ | ⟨rfl, hw⟩ | ⟨i, hi, ha, hw⟩ | ⟨j, hj, ha, hw⟩ <;>
    rw [hw] at h
  case inr.inr.inl => exact runCommand_changedByWriters h
  all_goals cases h
  · exact start
  · exact { start with strict := .inr (.inl ⟨v, rfl⟩) }
  · exact { start with sticky := .inr (.inr (.inl ⟨v, rfl⟩)), stickyCleared := .inr (.inl ⟨v, hv, rfl⟩) }
  · exact { start with msgLen := .inr (.inl ⟨v, rfl⟩) }
  · exact { start with bitLen := .inr (.inl ⟨v, rfl⟩) }
  · refine { start with msg := fun k => ?_ }
    by_cases hk : i = k
    · exact .inr (.inl ⟨a, v, rfl, hk ▸ hi, hk ▸ ha⟩)
    · exact .inl (List.getElem?_set_ne hk)
  · refine { start with bit := fun k => ?_ }
    by_cases hk : j = k
    · exact .inr (.inl ⟨a, v, rfl, hk ▸ hj, hk ▸ ha⟩)
    · exact .inl (List.getElem?_set_ne hk)

theorem runHostOp_changedByWriters {op : HostOp} {s t : State} (h : runHostOp op s = .next t) :
    ChangedByWriters (some op) s t := by
  have start := ChangedByWriters.refl (some op) s
  cases op with
  | wr a v => exact (memWrite_changedByWriters h).of_advance
  | attachCopy k => cases h; exact (start.attachKept k).goto _
  | reset => cases h; exact start.resetBlock.goto _
  | rd | brset | brclr | jmp | halt | attach | copyGrid => cases h; exact { start with }

theorem step_changedByWriters {s t : State} (h : step s = .next t) : ChangedByWriters s.prog[s.hpc]? s t := by
  cases hop : s.prog[s.hpc]? with
  | none => cases (step_of_none hop).symm.trans h; exact .refl _ s
  | some op => exact runHostOp_changedByWriters ((step_of_op hop).symm.trans h)

/-! ### The statements -/

/-- Settles O51, read off the writers of the entries of `MSG[]`. -/
theorem messageEntriesAreStable : Obligations.MessageEntriesAreStable :=
  fun _ _ i h hne => ((step_changedByWriters h).msg i).resolve_left hne

/-- Settles O52, read off the writers of the entries of `BIT[]`. -/
theorem bitEntriesAreStable : Obligations.BitEntriesAreStable :=
  fun _ _ j h hne => ((step_changedByWriters h).bit j).resolve_left hne

/-- Settles O53: a step without one of the two writers keeps a set `STICKY` set. -/
theorem stickyStaysUntilCleared : Obligations.StickyStaysUntilCleared := by
  intro s t hset h hclear
  exact (step_changedByWriters h).stickyCleared.resolve_left fun hkept => by simp [hkept hset] at hclear

/-- Settles O54, read off the writers of each register. -/
theorem registersChangeOnlyByTheirWriters : Obligations.RegistersChangeOnlyByTheirWriters := by
  intro s t h
  have changes := step_changedByWriters h
  refine ⟨changes.cfg, changes.strict.resolve_left, changes.reqPix.resolve_left, changes.msgLen.resolve_left,
    changes.bitLen.resolve_left, fun hne => changes.report.resolve_left fun hkept => ?_, changes.sticky.resolve_left⟩
  obtain ⟨hinfo, herr, hterm, htrunc, hfits⟩ := hkept
  simp [hinfo, herr, hterm, htrunc, hfits] at hne

end Sys2Proof.Machine
end

section
/-! PROOFS. Host writes that store what they are given: `CTRL`, the length registers and the buffer entries, what they read
back as, and what every other address then reads; the fields of `STATUS` in its word. -/

namespace Sys2Proof.Machine

/-! ### `CTRL` and the length registers -/

theorem memWrite_ctrl (v : Word) (s : State) : memWrite 0x2#32 v s = .next { s with strict := v.getLsbD 0 } :=
  rfl

@[simp] theorem memRead_ctrl (s : State) : memRead s 0x2#32 = bitWord s.strict :=
  rfl

theorem memWrite_msgLen (v : Word) (s : State) : memWrite 0x6#32 v s = .next { s with msgLen := v } :=
  rfl

@[simp] theorem memRead_msgLen (s : State) : memRead s 0x6#32 = s.msgLen :=
  rfl

theorem memWrite_bitLen (v : Word) (s : State) : memWrite 0x7#32 v s = .next { s with bitLen := v } :=
  rfl

@[simp] theorem memRead_bitLen (s : State) : memRead s 0x7#32 = s.bitLen :=
  rfl

/-- Bit 0 of a word is its parity. -/
theorem toNat_getLsbD_zero (v : Word) : (v.getLsbD 0).toNat = v.toNat % 2 := by
  simpa [BitVec.getLsbD] using Nat.toNat_testBit v.toNat 0

/-- Settles O8: the bit stored is the word's parity. -/
theorem ctrlWriteStoresStrict : Obligations.CtrlWriteStoresStrict := by
  intro s v
  refine ⟨_, memWrite_ctrl v s, rfl, ?_⟩
  rw [memRead_ctrl, bitWord_toNat, toNat_getLsbD_zero]

/-! ### `STATUS` -/

@[simp] theorem memRead_status (s : State) : memRead s 0x4#32 = statusWord s.status :=
  rfl

/-- A write to `STATUS` clears `STICKY` when bit 16 of the word is 1, and has no other effect (R17). -/
theorem memWrite_status (v : Word) (s : State) :
    memWrite 0x4#32 v s =
      .next { s with status := { s.status with sticky := s.status.sticky && !v.getLsbD 16 } } := by
  have htarget : memWrite 0x4#32 v s = .next (if v.getLsbD 16 then clearSticky s else s) := rfl
  rw [htarget]
  cases v.getLsbD 16 <;> simp [clearSticky]

/-- Bit `k` of the `STATUS` word: the place of each field, every other bit being 0 (R17, R35). -/
theorem statusWord_getLsbD (f : Status) (k : Nat) : (statusWord f).getLsbD k =
    if k < 4 then (errCode f.err).getLsbD k else
      k = 8 && f.term || k = 9 && f.trunc || k = 10 && f.fits || k = 16 && f.sticky := by
  change BitVec.getLsbD (w := 15 + 1 + 5 + 1 + 1 + 1 + 4 + 4) (statusWord f) k = _
  simp only [statusWord, BitVec.getLsbD_append, BitVec.getLsbD_ofBool, BitVec.getLsbD_zero]
  by_cases h : k < 17
  · interval_cases k <;> simp
  · obtain ⟨d, rfl⟩ := Nat.exists_eq_add_of_le' (Nat.le_of_not_lt h)
    simp

theorem statusWord_err (f : Status) : (statusWord f).extractLsb' 0 4 = errCode f.err :=
  BitVec.extractLsb'_append_eq_right

/-- Settles O9: the word is read bit by bit, `ERR` as the field it is. -/
theorem statusWordLayoutAndClear : Obligations.StatusWordLayoutAndClear := by
  intro s v
  have herr : ((statusWord s.status).extractLsb' 0 4).toNat = (errCode s.status.err).toNat := by rw [statusWord_err]
  simp only [memRead_status, statusWord_getLsbD, herr]
  refine ⟨?_, by simp, by simp, by simp, by simp, memWrite_status v s⟩
  cases s.status.err <;> rfl

/-! ### The buffers -/

theorem portTarget_msgAddr {n i : Nat} (hn : n < 2 ^ 24) (hi : i < n) :
    portTarget n (BitVec.ofNat 32 (msgBase + i)) = .msg i := by
  refine (portTarget_eq_msg _ i).mpr ⟨hi, ?_⟩
  rw [BitVec.toNat_ofNat, Nat.mod_eq_of_lt (by have := msgBase_eq; omega)]

theorem portTarget_bitAddr {n j : Nat} (hn : n < 2 ^ 24) (hj : j < 8 * n) :
    portTarget n (BitVec.ofNat 32 (bitBase + j)) = .bit j := by
  refine (portTarget_eq_bit hn _ j).mpr ⟨hj, ?_⟩
  rw [BitVec.toNat_ofNat, Nat.mod_eq_of_lt (by have := bitBase_eq; omega)]

theorem memRead_of_msg {s : State} {a : Word} {i : Nat} (ha : portTarget (nBytes s) a = .msg i) :
    memRead s a = s.msg.getD i 0 := by
  simp [memRead, ha]

theorem memRead_of_bit {s : State} {a : Word} {j : Nat} (ha : portTarget (nBytes s) a = .bit j) :
    memRead s a = bitWord (s.bit.getD j false) := by
  simp [memRead, ha]

/-- No two addresses name the same entry of `MSG[]`. -/
theorem eq_of_portTarget_msg {n i : Nat} {a b : Word} (ha : portTarget n a = .msg i) (hb : portTarget n b = .msg i) :
    a = b :=
  BitVec.eq_of_toNat_eq <|
    ((portTarget_eq_msg a i).mp ha).2.trans ((portTarget_eq_msg b i).mp hb).2.symm

/-- No two addresses name the same entry of `BIT[]`. -/
theorem eq_of_portTarget_bit {n j : Nat} (hn : n < 2 ^ 24) {a b : Word} (ha : portTarget n a = .bit j)
    (hb : portTarget n b = .bit j) : a = b :=
  BitVec.eq_of_toNat_eq <|
    ((portTarget_eq_bit hn a j).mp ha).2.trans ((portTarget_eq_bit hn b j).mp hb).2.symm

/-- An address that does not name `MSG[i]` reads the same after a write of that entry. -/
theorem memRead_set_msg_other {s : State} {a : Word} {i : Nat} (ha : portTarget (nBytes s) a ≠ .msg i) (v : Word) :
    memRead { s with msg := s.msg.set i v } a = memRead s a := by
  have hn : nBytes { s with msg := s.msg.set i v } = nBytes s := rfl
  simp only [memRead, hn]
  cases h : portTarget (nBytes s) a with
  | msg k =>
    have hne : i ≠ k := fun hik => ha (hik ▸ h)
    simp [List.getD, List.getElem?_set_ne hne]
  | _ => rfl

/-- An address that does not name `BIT[j]` reads the same after a write of that entry. -/
theorem memRead_set_bit_other {s : State} {a : Word} {j : Nat} (ha : portTarget (nBytes s) a ≠ .bit j) (b : Bool) :
    memRead { s with bit := s.bit.set j b } a = memRead s a := by
  have hn : nBytes { s with bit := s.bit.set j b } = nBytes s := rfl
  simp only [memRead, hn]
  cases h : portTarget (nBytes s) a with
  | bit k =>
    have hne : j ≠ k := fun hjk => ha (hjk ▸ h)
    simp [List.getD, List.getElem?_set_ne hne]
  | _ => rfl

/-- A write to `MSG[i]` stores the word, which reads back, and no other address reads differently (R21). -/
theorem memWrite_msg_readsBack {s : State} {a : Word} {i : Nat} (hs : s.msg.length = nBytes s)
    (ha : portTarget (nBytes s) a = .msg i) (v : Word) :
    ∃ t, memWrite a v s = .next t ∧ t = { s with msg := s.msg.set i v } ∧ memRead t a = v ∧
      ∀ b, b ≠ a → memRead t b = memRead s b := by
  have hi : i < s.msg.length := hs ▸ ((portTarget_eq_msg a i).mp ha).1
  refine ⟨{ s with msg := s.msg.set i v }, by simp [memWrite, ha], rfl, ?_, fun b hb => ?_⟩
  · rw [memRead_of_msg (s := { s with msg := s.msg.set i v }) ha]
    simp [hi]
  · exact memRead_set_msg_other (fun h => hb (eq_of_portTarget_msg h ha)) v

/-- A write to `BIT[j]` stores bit 0 of the word, which reads back, and no other address reads differently (R22). -/
theorem memWrite_bit_readsBack {s : State} {a : Word} {j : Nat} (hs : s.bit.length = 8 * nBytes s)
    (ha : portTarget (nBytes s) a = .bit j) (v : Word) :
    ∃ t, memWrite a v s = .next t ∧ t = { s with bit := s.bit.set j (v.getLsbD 0) } ∧
      (memRead t a).toNat = v.toNat % 2 ∧ ∀ b, b ≠ a → memRead t b = memRead s b := by
  have hj : j < s.bit.length := hs ▸ ((portTarget_eq_bit (nBytes_lt s) a j).mp ha).1
  refine ⟨{ s with bit := s.bit.set j (v.getLsbD 0) }, by simp [memWrite, ha], rfl, ?_, fun b hb => ?_⟩
  · rw [memRead_of_bit (s := { s with bit := s.bit.set j (v.getLsbD 0) }) ha, bitWord_toNat, ← toNat_getLsbD_zero]
    simp [hj]
  · exact memRead_set_bit_other (fun h => hb (eq_of_portTarget_bit (nBytes_lt s) h ha)) _

/-- Settles O10: the registers and the entries, each from its own write. -/
theorem hostWriteReadsBack : Obligations.HostWriteReadsBack := by
  rintro s v ⟨-, ⟨hmsg, hbit⟩, -⟩
  refine ⟨⟨_, memWrite_msgLen v s, rfl, memRead_msgLen _⟩, ⟨_, memWrite_bitLen v s, rfl, memRead_bitLen _⟩,
    fun i hi => ?_, fun j hj => ?_⟩
  · obtain ⟨t, hwrite, rfl, hreads⟩ := memWrite_msg_readsBack hmsg (portTarget_msgAddr (nBytes_lt s) hi) v
    exact ⟨_, hwrite, rfl, hreads⟩
  · obtain ⟨t, hwrite, rfl, hreads⟩ := memWrite_bit_readsBack hbit (portTarget_bitAddr (nBytes_lt s) hj) v
    exact ⟨_, hwrite, rfl, hreads⟩

end Sys2Proof.Machine
end

section
/-! PROOFS. The address map (20_memory.md R33 to R36): what every word address reads, which addresses ignore writes, and
the host steps that are one access to the port. -/

namespace Sys2Proof.Machine

/-! ### What each register reads -/

@[simp] theorem memRead_id (s : State) : memRead s 0x0#32 = 0x4C534231#32 :=
  rfl

@[simp] theorem memRead_caps (s : State) : memRead s 0x1#32 = capsWord s.cfg :=
  rfl

@[simp] theorem memRead_cmd (s : State) : memRead s 0x3#32 = 0 :=
  rfl

@[simp] theorem memRead_errInfo (s : State) : memRead s 0x5#32 = s.errInfo :=
  rfl

@[simp] theorem memRead_gridW (s : State) : memRead s 0x8#32 = s.grid.w.setWidth 32 :=
  rfl

@[simp] theorem memRead_gridH (s : State) : memRead s 0x9#32 = s.grid.h.setWidth 32 :=
  rfl

@[simp] theorem memRead_availPix (s : State) : memRead s 0xA#32 = BitVec.ofNat 32 (capacity s) :=
  rfl

@[simp] theorem memRead_reqPix (s : State) : memRead s 0xB#32 = s.reqPix :=
  rfl

theorem memRead_of_reserved {s : State} {a : Word} (ha : portTarget (nBytes s) a = .reserved) : memRead s a = 0 := by
  simp [memRead, ha]

/-- Settles O5: the registers by their own reads, the buffer entries by their windows, and the reserved ranges as what
lies outside registers and windows. -/
theorem portReadsRegistersAndBuffers : Obligations.PortReadsRegistersAndBuffers := by
  intro s
  have hn : s.cfg.nBytes.toNat < 2 ^ 24 := nBytes_lt s
  have hreserved : ∀ a : Word, 11 < a.toNat →
      ¬ (0x01000000 ≤ a.toNat ∧ a.toNat < 0x01000000 + s.cfg.nBytes.toNat) →
      ¬ (0x08000000 ≤ a.toNat ∧ a.toNat < 0x08000000 + 8 * s.cfg.nBytes.toNat) → memRead s a = 0 :=
    fun a hreg hmsg hbit => memRead_of_reserved (portTarget_reserved hn hreg hmsg hbit)
  rw [memRead_gridW, memRead_gridH]
  refine ⟨memRead_id s, capsWord_toNat s.cfg, bitWord_toNat s.strict, memRead_cmd s, memRead_status s,
    memRead_errInfo s, memRead_msgLen s, memRead_bitLen s, BitVec.toNat_setWidth_of_le (by decide),
    BitVec.toNat_setWidth_of_le (by decide), capacityWord_toNat s, memRead_reqPix s,
    fun i hi => memRead_of_msg (portTarget_msgAddr hn hi), fun j hj => ?_,
    fun a _ _ => hreserved a (by omega) (by omega) (by omega), fun a _ _ => hreserved a (by omega) (by omega) (by omega),
    fun a _ => hreserved a (by omega) (by omega) (by omega), by omega, by omega⟩
  rw [memRead_of_bit (portTarget_bitAddr hn hj), bitWord_toNat]

/-! ### What ignores writes -/

/-- The targets on which a write has no effect: reserved addresses and read-only registers (R34, R35). -/
def PortTarget.ignoresWrites : PortTarget → Bool
  | .id | .caps | .errInfo | .gridW | .gridH | .availPix | .reqPix | .reserved => true
  | .ctrl | .cmd | .status | .msgLen | .bitLen | .msg _ | .bit _ => false

theorem memWrite_of_ignoresWrites {s : State} {a : Word} (ha : (portTarget (nBytes s) a).ignoresWrites = true)
    (v : Word) : memWrite a v s = .next s := by
  cases h : portTarget (nBytes s) a with
  | id | caps | errInfo | gridW | gridH | availPix | reqPix | reserved => simp only [memWrite, h]
  | ctrl | cmd | status | msgLen | bitLen | msg | bit => simp [h, PortTarget.ignoresWrites] at ha

/-- Settles O6: such an address is reserved. -/
theorem reservedAddressesReadZeroAndIgnoreWrites : Obligations.ReservedAddressesReadZeroAndIgnoreWrites := by
  intro s a v hreg hmsg hbit
  have htarget : portTarget (nBytes s) a = .reserved := portTarget_reserved (nBytes_lt s) hreg hmsg hbit
  exact ⟨memRead_of_reserved htarget, memWrite_of_ignoresWrites (htarget ▸ rfl) v⟩

theorem memWrite_readOnlyRegister {a : Word} (ha : a ∈ [0x0#32, 0x1#32, 0x5#32, 0x8#32, 0x9#32, 0xA#32, 0xB#32])
    (v : Word) (s : State) : memWrite a v s = .next s := by
  have htarget : (portTarget (nBytes s) a).ignoresWrites = true := by
    simp only [List.mem_cons, List.not_mem_nil, or_false] at ha
    rcases ha with rfl | rfl | rfl | rfl | rfl | rfl | rfl <;> rfl
  exact memWrite_of_ignoresWrites htarget v

/-- A bit as a host word has only bit 0 (R22). -/
theorem bitWord_getLsbD (b : Bool) (k : Nat) : (bitWord b).getLsbD k = (decide (k = 0) && b) := by
  cases k <;> simp [bitWord]

/-- Settles O7: the read-only registers by their targets, `CTRL` and `STATUS` by the one bit of a written word they use
and the places of their fields. -/
theorem readOnlyRegistersIgnoreWrites : Obligations.ReadOnlyRegistersIgnoreWrites := by
  intro s v
  refine ⟨fun a ha => memWrite_readOnlyRegister ha v s, ⟨_, memWrite_status v s, rfl⟩, ?_, ?_, fun b _ hb => ?_,
    fun b _ hb => ?_⟩
  · simp [memWrite_ctrl]
  · simp [memWrite_status]
  · simp [bitWord_getLsbD, Nat.ne_of_gt hb]
  · have hplaces : ¬ b < 4 ∧ b ≠ 8 ∧ b ≠ 9 ∧ b ≠ 10 ∧ b ≠ 16 := by
      simp only [List.mem_cons, List.not_mem_nil, or_false, not_or] at hb
      omega
    simp [statusWord_getLsbD, hplaces]

/-! ### Steps that are one access to the port -/

theorem step_of_wr {s : State} {a v : Word} (h : s.prog[s.hpc]? = some (.wr a v)) :
    step s = memWrite a v (advance s) :=
  step_of_op h

theorem runCommand_of_decode {w : Word} {i : Instr} (h : decode w = .ok i) (s : State) : runCommand w s = exec i s := by
  simp [runCommand, h]

/-- Settles O14: a write to `CMD` runs the command its word decodes to. -/
theorem stepRunsTheDecodedCommand : Obligations.StepRunsTheDecodedCommand := by
  refine ⟨fun s a v h => step_of_wr h, fun s w i h hdecode => ?_⟩
  calc step s = memWrite 0x3#32 w (advance s) := step_of_wr h
    _ = runCommand w (advance s) := memWrite_cmd w _
    _ = exec i (advance s) := runCommand_of_decode hdecode _

/-- Settles O15: the step at a read notes the word and moves the host on. -/
theorem hostReadHasNoSideEffect : Obligations.HostReadHasNoSideEffect :=
  fun _ _ h => step_of_op h

end Sys2Proof.Machine
end

section
/-! PROOFS. What can change the attached grid (20_memory.md R38, R43, R47): of the commands `EMBED` and `HIDE`, of the
host's other operations the two that attach a grid. -/

namespace Sys2Proof.Machine

theorem commandResult_grid {i : Instr} (hembed : i ≠ .embed) (hhide : i ≠ .hide) (s : State) :
    (commandResult i s).grid = s.grid := by
  cases i with
  | embed => exact absurd rfl hembed
  | hide => exact absurd rfl hhide
  | fenc | fdec | extract | reveal | capcheck => rfl

theorem runCommand_grid {w : Word} {s t : State} (h : runCommand w s = .next t) :
    t.grid = s.grid ∨ w = encode .embed ∨ w = encode .hide := by
  rcases runCommand_cases w s with ⟨r, -, hrun⟩ | ⟨i, rfl, -, hrun⟩ <;> cases hrun.symm.trans h
  · exact .inl (raise_grid _ _ s)
  · by_cases hembed : i = .embed
    · exact .inr (.inl (hembed ▸ rfl))
    · by_cases hhide : i = .hide
      · exact .inr (.inr (hhide ▸ rfl))
      · exact .inl (commandResult_grid hembed hhide s)

/-- The port changes the grid only by a command written to `CMD`. -/
theorem memWrite_grid {a v : Word} {s t : State} (h : memWrite a v s = .next t) :
    t.grid = s.grid ∨ a = 0x3#32 ∧ (v = encode .embed ∨ v = encode .hide) := by
  rcases memWrite_cases a v s with
    hw | ⟨-, hw⟩ | ⟨ha, hw⟩ | ⟨-, -, hw⟩ | ⟨-, hw⟩ | ⟨-, hw⟩ | ⟨i, -, -, hw⟩ | ⟨j, -, -, hw⟩ <;> rw [hw] at h
  case inr.inr.inl => exact (runCommand_grid h).imp_right fun hv => ⟨ha, hv⟩
  all_goals cases h; exact .inl rfl

/-- The host's operations that may change the attached grid. -/
def HostOp.mayChangeGrid (op : HostOp) : Prop :=
  op = .wr 0x3#32 (encode .embed) ∨ op = .wr 0x3#32 (encode .hide) ∨
    (∃ w h cells, op = .attach w h cells) ∨ ∃ k, op = .attachCopy k

theorem runHostOp_grid {op : HostOp} {s t : State} (h : runHostOp op s = .next t) :
    t.grid = s.grid ∨ op.mayChangeGrid := by
  cases op with
  | wr a v =>
    rcases memWrite_grid (s := advance s) h with hkept | ⟨rfl, rfl | rfl⟩
    · exact .inl hkept
    · exact .inr (.inl rfl)
    · exact .inr (.inr (.inl rfl))
  | attach w height cells => exact .inr (.inr (.inr (.inl ⟨w, height, cells, rfl⟩)))
  | attachCopy k => exact .inr (.inr (.inr (.inr ⟨k, rfl⟩)))
  | rd | brset | brclr | jmp | halt | copyGrid | reset => cases h; exact .inl rfl

/-- Settles O50: a step is the host's next operation, or nothing once the program is over. -/
theorem onlyEmbedHideAndAttachChangeTheGrid : Obligations.OnlyEmbedHideAndAttachChangeTheGrid := by
  intro s t h hne
  cases hop : s.prog[s.hpc]? with
  | none => cases (step_of_none hop).symm.trans h; exact absurd rfl hne
  | some op =>
    have hmay : op.mayChangeGrid := (runHostOp_grid ((step_of_op hop).symm.trans h)).resolve_left hne
    simp only [Option.some.injEq]
    exact hmay

end Sys2Proof.Machine
end

section
/-! PROOFS. The command words (30_encoding.md R49 to R52): a word's fields as numbers, the reading of every word by its
number, and what a write of an illegal word to `CMD` does (R51, R86). -/

namespace Sys2Proof.Machine

/-! ### Fields and opcodes -/

/-- `Z` is zero exactly below 256 (R49). -/
theorem fieldZ_eq_zero_iff (w : Word) : fieldZ w = 0 ↔ w.toNat < 256 := by
  have hvalue : (fieldZ w).toNat = w.toNat / 256 := by
    simp only [fieldZ, BitVec.extractLsb'_toNat, Nat.shiftRight_eq_div_pow]
    omega
  rw [← BitVec.toNat_inj, hvalue]
  simp only [BitVec.ofNat_eq_ofNat, BitVec.toNat_ofNat]
  omega

/-- Below 256 the field `OP` is the whole number of the word (R49). -/
theorem fieldOp_toNat {w : Word} (h : w.toNat < 256) : (fieldOp w).toNat = w.toNat := by
  simp only [fieldOp, BitVec.extractLsb'_toNat, Nat.shiftRight_zero]
  omega

/-- The opcodes of R50 are 1 to 7. -/
theorem opcodeInstr_eq_none_iff (op : BitVec 8) : opcodeInstr op = none ↔ op.toNat = 0 ∨ 8 ≤ op.toNat := by
  unfold opcodeInstr
  repeat' split
  case isFalse => simp only [true_iff]; bv_omega
  all_goals subst op; decide

/-! ### The reading of every word -/

@[simp] theorem decode_encode (i : Instr) : decode (encode i) = .ok i := by
  cases i <;> decide

theorem decode_eq_ok_iff (w : Word) (i : Instr) : decode w = .ok i ↔ w = encode i :=
  ⟨eq_encode_of_decode, fun h => h ▸ decode_encode i⟩

theorem decode_of_nonzeroZ {w : Word} (h : 256 ≤ w.toNat) : decode w = .error .nonzeroZ :=
  if_pos (mt (fieldZ_eq_zero_iff w).mp (by omega))

theorem decode_of_zeroOp {w : Word} (h : w.toNat = 0) : decode w = .error .zeroOp := by
  obtain rfl : w = 0#32 := BitVec.eq_of_toNat_eq h
  rfl

theorem decode_of_unassignedOp {w : Word} (h : 8 ≤ w.toNat ∧ w.toNat ≤ 255) : decode w = .error .unassignedOp := by
  have hz : fieldZ w = 0 := (fieldZ_eq_zero_iff w).mpr (by omega)
  have hop : (fieldOp w).toNat = w.toNat := fieldOp_toNat (by omega)
  have hnone : opcodeInstr (fieldOp w) = none := (opcodeInstr_eq_none_iff _).mpr (by omega)
  have hne : fieldOp w ≠ 0 := fun h0 => by simp [h0] at hop; omega
  simp only [decode, hz, hnone, hne, ne_eq, not_true_eq_false, if_false]

theorem exists_decode_of_legal {w : Word} (h : 1 ≤ w.toNat ∧ w.toNat ≤ 7) : ∃ i, decode w = .ok i := by
  have hz : fieldZ w = 0 := (fieldZ_eq_zero_iff w).mpr (by omega)
  have hop : (fieldOp w).toNat = w.toNat := fieldOp_toNat (by omega)
  have hsome : opcodeInstr (fieldOp w) ≠ none := mt (opcodeInstr_eq_none_iff _).mp (by omega)
  obtain ⟨i, hi⟩ := Option.ne_none_iff_exists'.mp hsome
  exact ⟨i, by simp only [decode, hz, hi, ne_eq, not_true_eq_false, if_false]⟩

/-- The four ranges of R50 and R51: every word lies in one of them, and its range says how it is read. -/
theorem decode_cases (w : Word) :
    (256 ≤ w.toNat ∧ decode w = .error .nonzeroZ) ∨
    (w.toNat = 0 ∧ decode w = .error .zeroOp) ∨
    ((8 ≤ w.toNat ∧ w.toNat ≤ 255) ∧ decode w = .error .unassignedOp) ∨
    ((1 ≤ w.toNat ∧ w.toNat ≤ 7) ∧ ∃ i, decode w = .ok i) := by
  have hrange : 256 ≤ w.toNat ∨ w.toNat = 0 ∨ (8 ≤ w.toNat ∧ w.toNat ≤ 255) ∨ (1 ≤ w.toNat ∧ w.toNat ≤ 7) := by omega
  exact hrange.imp (fun h => ⟨h, decode_of_nonzeroZ h⟩) <| .imp (fun h => ⟨h, decode_of_zeroOp h⟩) <|
    .imp (fun h => ⟨h, decode_of_unassignedOp h⟩) fun h => ⟨h, exists_decode_of_legal h⟩

/-- Settles O12: a command is read back from its word and from no other; the range of a word says which refusal it
meets. -/
theorem decodeAndEncodeAgree : Obligations.DecodeAndEncodeAgree := by
  refine ⟨fun i _ => decode_encode i, decode_eq_ok_iff, fun w => ?_⟩
  rcases decode_cases w with ⟨hrange, hread⟩ | ⟨hrange, hread⟩ | ⟨hrange, hread⟩ | ⟨hrange, i, hread⟩ <;>
    simp only [hread, reduceCtorEq, Except.error.injEq, true_iff, false_iff] <;> omega

/-- Settles O11: the written words are the encodings of the commands. -/
theorem legalWordsSelectTheirCommands : Obligations.LegalWordsSelectTheirCommands :=
  ⟨decode_encode .fenc, decode_encode .fdec, decode_encode .embed, decode_encode .extract, decode_encode .hide,
    decode_encode .reveal, decode_encode .capcheck⟩

/-! ### Illegal words at `CMD` -/

theorem decode_eq_error_of_not_legal {w : Word} (h : ¬ (1 ≤ w.toNat ∧ w.toNat ≤ 7)) : ∃ e, decode w = .error e := by
  rcases decode_cases w with ⟨-, hread⟩ | ⟨-, hread⟩ | ⟨-, hread⟩ | ⟨hlegal, -⟩
  case inr.inr.inr => exact absurd hlegal h
  all_goals exact ⟨_, hread⟩

theorem runCommand_of_decode_error {w : Word} {e : IllegalWord} (h : decode w = .error e) (s : State) :
    runCommand w s = .next (raise .illegalCommand w s) := by
  simp [runCommand, h]

/-- Settles O13: such a word does not decode, and raising an error is the whole effect of writing it. -/
theorem everyOtherWordRaisesIllegalCommand : Obligations.EveryOtherWordRaisesIllegalCommand := by
  intro s w hw
  obtain ⟨e, he⟩ := decode_eq_error_of_not_legal hw
  calc memWrite 0x3#32 w s = runCommand w s := memWrite_cmd w s
    _ = .next (raise .illegalCommand w s) := runCommand_of_decode_error he s

end Sys2Proof.Machine
end

section
/-! PROOFS. The Bit Framer (40_framer.md): a byte and its bits, the bits of a frame, what `deframe` returns on every bit
list, and the two commands built on them. -/

namespace Sys2Proof.Machine

/-! ### A byte and its bits (R55, R56) -/

/-- Eight bits spell the sum of their weights. -/
theorem bitsToNat_of_eight (b7 b6 b5 b4 b3 b2 b1 b0 : Bool) :
    bitsToNat [b7, b6, b5, b4, b3, b2, b1, b0] =
      128 * b7.toNat + 64 * b6.toNat + 32 * b5.toNat + 16 * b4.toNat + 8 * b3.toNat + 4 * b2.toNat + 2 * b1.toNat +
        b0.toNat := by
  simp only [bitsToNat, List.foldl_cons, List.foldl_nil]
  omega

/-- The weights of eight bits add up to at most 255, so the byte loses nothing of their sum. -/
theorem bitsToByte_toNat_of_eight (b7 b6 b5 b4 b3 b2 b1 b0 : Bool) :
    (bitsToByte [b7, b6, b5, b4, b3, b2, b1, b0]).toNat = bitsToNat [b7, b6, b5, b4, b3, b2, b1, b0] := by
  have hlt : bitsToNat [b7, b6, b5, b4, b3, b2, b1, b0] < 256 := by
    have hbit := Bool.toNat_le
    have := hbit b7; have := hbit b6; have := hbit b5; have := hbit b4
    have := hbit b3; have := hbit b2; have := hbit b1; have := hbit b0
    rw [bitsToNat_of_eight]
    omega
  exact Nat.mod_eq_of_lt hlt

/-- Settles O34: both readings have the most significant bit first. -/
theorem byteAndBitsAreInverse : Obligations.ByteAndBitsAreInverse :=
  ⟨getElem?_byteToBits,
    fun b7 b6 b5 b4 b3 b2 b1 b0 =>
      (bitsToByte_toNat_of_eight b7 b6 b5 b4 b3 b2 b1 b0).trans (bitsToNat_of_eight b7 b6 b5 b4 b3 b2 b1 b0),
    fun v => ⟨length_byteToBits v, bitsToByte_byteToBits v⟩⟩

/-! ### The bits of a frame (R57, R58) -/

/-- A frame is made of whole groups (R58). -/
theorem length_frame_mod_eight (m : List Byte) : (frame m).length % 8 = 0 := by
  rw [length_frame]
  unfold requiredPixels
  split <;> omega

/-- Bit `8i + j` of a frame is bit `7 - j` of character `i` (R57). -/
theorem getElem?_frame {m : List Byte} {i j : Nat} {c : Byte} (h : m[i]? = some c) (hj : j < 8) :
    (frame m)[8 * i + j]? = some (c.getLsbD (7 - j)) := by
  have hi : i < m.length := (List.getElem?_eq_some_iff.mp h).1
  rw [frame_of_pos (by omega), List.getElem?_append_left (by rw [length_flatMap_byteToBits]; omega)]
  exact getElem?_flatMap_byteToBits h hj

/-- Behind its characters a frame has the terminator alone (R57). -/
theorem drop_frame {m : List Byte} (h : 0 < m.length) : (frame m).drop (8 * m.length) = terminator := by
  rw [frame_of_pos h]
  exact List.drop_left' (length_flatMap_byteToBits m)

/-- Settles O35: a frame that is not empty is the characters' groups and then the terminator. -/
theorem frameBitsAndLength : Obligations.FrameBitsAndLength := fun m =>
  ⟨length_frame m, length_frame_mod_eight m, fun _ _ _ h hj => getElem?_frame h hj, drop_frame⟩

/-! ### What `deframe` returns on every bit list (R59, R60, R61) -/

/-- Character `k` is not 0 and is what group `k` spells. -/
theorem deframe_character {s : List Bool} {k : Nat} {c : Byte} (h : (deframe s).1[k]? = some c) :
    c ≠ 0 ∧ (s.drop (8 * k)).take 8 = byteToBits c := by
  obtain ⟨-, -, -, hchar⟩ := deframeGroups_spec (s.length / 8) s (by omega)
  exact hchar k c h

/-- The flag is 0 exactly when every whole group is a character. -/
theorem deframe_flag_eq_false_iff (s : List Bool) :
    (deframe s).2 = false ↔ (deframe s).1.length = s.length / 8 := by
  obtain ⟨-, hflag, -, -⟩ := deframeGroups_spec (s.length / 8) s (by omega)
  exact hflag

/-- When the flag is 1 the group behind the characters is the terminator. -/
theorem deframe_terminator {s : List Bool} (h : (deframe s).2 = true) :
    (s.drop (8 * (deframe s).1.length)).take 8 = terminator := by
  obtain ⟨-, -, hterm, -⟩ := deframeGroups_spec (s.length / 8) s (by omega)
  exact hterm h

/-- The flag is 1 exactly when some whole group is left behind the characters. -/
theorem deframe_flag_eq_true_iff (s : List Bool) :
    (deframe s).2 = true ↔ (deframe s).1.length < s.length / 8 := by
  rw [← Bool.not_eq_false, deframe_flag_eq_false_iff]
  exact ⟨Nat.lt_of_le_of_ne (length_deframe_le s), Nat.ne_of_lt⟩

/-- The group loop does not look behind its groups. -/
theorem deframeGroups_append {n : Nat} {s : List Bool} (h : 8 * n ≤ s.length) (more : List Bool) :
    deframeGroups n (s ++ more) = deframeGroups n s := by
  induction n generalizing s with
  | zero => rfl
  | succ n ih =>
    have hrest : deframeGroups n (s.drop 8 ++ more) = deframeGroups n (s.drop 8) :=
      ih (by rw [List.length_drop]; omega)
    simp only [deframeGroups]
    rw [List.take_append_of_le_length (by omega), List.drop_append_of_le_length (by omega), hrest]

/-- Bits that make no whole group are never read (R60). -/
theorem deframe_append_of_lt_eight {s more : List Bool} (hs : s.length % 8 = 0) (hmore : more.length < 8) :
    deframe (s ++ more) = deframe s := by
  have hgroups : (s ++ more).length / 8 = s.length / 8 := by rw [List.length_append]; omega
  unfold deframe
  rw [hgroups]
  exact deframeGroups_append (by omega) more

/-- A list without a whole group (R61): the empty list with bits that are never read. -/
theorem deframe_of_lt_eight {s : List Bool} (h : s.length < 8) : deframe s = ([], false) :=
  deframe_append_of_lt_eight (s := []) rfl h

/-- Without a zero group the loop runs to the end (R61): a flag of 1 would name such a group. -/
theorem deframe_flag_of_no_terminator {s : List Bool}
    (h : ∀ k < s.length / 8, (s.drop (8 * k)).take 8 ≠ terminator) : (deframe s).2 = false := by
  by_contra hflag
  have htrue : (deframe s).2 = true := Bool.eq_true_of_not_eq_false hflag
  exact h _ ((deframe_flag_eq_true_iff s).mp htrue) (deframe_terminator htrue)

/-- Settles O36: the characters are the groups before the first zero group, and the flag says whether there is one. -/
theorem deframeReadsGroupsToTheTerminator : Obligations.DeframeReadsGroupsToTheTerminator := by
  intro s
  refine ⟨fun _ _ => deframe_character, deframe_flag_eq_false_iff s, ⟨fun h => ?_, fun ⟨hlt, _⟩ => ?_⟩,
    fun _ => deframe_append_of_lt_eight, deframe_of_lt_eight, fun h => ?_⟩
  · exact ⟨(deframe_flag_eq_true_iff s).mp h, deframe_terminator h⟩
  · exact (deframe_flag_eq_true_iff s).mpr hlt
  · have hflag := deframe_flag_of_no_terminator h
    exact ⟨(deframe_flag_eq_false_iff s).mp hflag, hflag⟩

/-! ### Deframing a frame (R63, R65) -/

/-- Non-zero characters and a terminator are read back, whatever bits follow. -/
theorem deframe_of_terminated {m : List Byte} (hm : ∀ c ∈ m, c ≠ 0) (more : List Bool) :
    deframe (m.flatMap byteToBits ++ (terminator ++ more)) = (m, true) := by
  refine deframeGroups_of_terminated hm more ?_
  simp only [List.length_append, length_flatMap_byteToBits, length_terminator]
  omega

/-- Settles O37: the frame of a message ends its characters by a terminator. -/
theorem deframeInvertsFrame : Obligations.DeframeInvertsFrame := by
  refine ⟨fun s => ⟨length_deframe_le s, (deframe_flag_eq_false_iff s).symm, fun h => ?_⟩, fun m more hpos hm => ?_⟩
  · exact ⟨fun _ _ => deframe_character, deframe_terminator h⟩
  · rw [frame_of_pos hpos, List.append_assoc]
    exact deframe_of_terminated hm more

/-- The bits of a character 0 are the terminator (R63). -/
theorem byteToBits_zero : byteToBits 0 = terminator := rfl

/-- In the frame of a message with a character 0 a terminator stands right behind the characters before it (R63). -/
theorem frame_append_zero (a b : List Byte) :
    frame (a ++ 0 :: b) = a.flatMap byteToBits ++ (terminator ++ (b.flatMap byteToBits ++ terminator)) := by
  rw [frame_of_pos (by simp), List.flatMap_append, List.flatMap_cons, byteToBits_zero]
  simp only [List.append_assoc]

/-- Settles O38: on decode the group of the character 0 is the terminator. -/
theorem nulCharacterEndsTheMessage : Obligations.NulCharacterEndsTheMessage := by
  intro a b ha
  rw [frame_append_zero]
  refine ⟨?_, deframe_of_terminated ha _⟩
  simp only [List.length_append, length_flatMap_byteToBits, length_terminator]
  omega

/-! ### The commands (R62, R66) -/

/-- Settles O27: its three cases are those of the message operand; the result is the frame in `BIT[]`. -/
theorem fencFramesTheMessage : Obligations.FencFramesTheMessage := by
  refine ⟨decode_encode .fenc, fun s hs => ?_⟩
  obtain ⟨hcfg, hbuf, -⟩ := hs
  have ⟨hmsg, _⟩ := hbuf
  refine ⟨fenc_length, fun h _ hi => fenc_encoding hmsg h hi, fun h hlegal => ?_⟩
  exact ⟨_, fenc_ok hmsg h hlegal, writeBits_framesMessage hcfg hbuf h, rfl⟩

/-- The characters in as many bits as `BIT[]` has fit in `MSG[]`. -/
theorem length_deframe_take_le_nBytes {bits : List Bool} {n k : Nat} (hk : k ≤ 8 * n) :
    (deframe (bits.take k)).1.length ≤ n := by
  have hle := length_deframe_le (bits.take k)
  have hlen : (bits.take k).length ≤ k := List.length_take_le k bits
  omega

/-- Settles O28: its two cases are those of the bit operand; what is decoded fits in `MSG[]`. -/
theorem fdecDeframesTheBits : Obligations.FdecDeframesTheBits := by
  refine ⟨decode_encode .fdec, fun s hs => ?_⟩
  obtain ⟨-, ⟨hmsg, -⟩, -⟩ := hs
  refine ⟨fdec_length, fun h => ?_⟩
  have hfit : (deframe (s.bit.take s.bitLen.toNat)).1.length ≤ nBytes s := length_deframe_take_le_nBytes h
  have hlt : nBytes s < 2 ^ 24 := nBytes_lt s
  exact ⟨_, fdec_ok h, writeMessage_holdsMessage _ (hmsg ▸ hfit) (by omega), rfl⟩

end Sys2Proof.Machine
end

section
/-! PROOFS. The Channel Embedder (41_embedder.md): the raster order, what `EMBED` and `EXTRACT` do, and the bits an
`EXTRACT` reads after an `EMBED`. -/

namespace Sys2Proof.Machine

/-! ### The raster order (R67) -/

theorem raster_rasterIndex {h x y : Nat} (hy : y < h) : raster h (rasterIndex h x y) = (x, y) :=
  have ⟨hx, hy⟩ := (raster_eq_iff hy).mpr rfl
  Prod.ext hx hy

theorem rasterIndex_raster (h k : Nat) : rasterIndex h (raster h k).1 (raster h k).2 = k := Nat.div_add_mod' k h

/-- Settles O39: division by the height with remainder, both ways. -/
theorem rasterOrderIsColumnMajor : Obligations.RasterOrderIsColumnMajor := by
  refine fun w h => ⟨fun k hk => ?_, fun x hx y hy => ⟨rasterIndex_lt hx hy, raster_rasterIndex hy, rfl⟩⟩
  have ⟨hx, hy⟩ := raster_inGrid hk
  exact ⟨hx, hy, rasterIndex_raster h k, rfl⟩

/-! ### The commands (R68 to R70) -/

/-- Settles O29: its three cases are those of the bit operand and of the strict capacity check. -/
theorem embedWritesTheLowBlueBits : Obligations.EmbedWritesTheLowBlueBits := by
  refine ⟨decode_encode .embed, fun s hs => ?_⟩
  obtain ⟨-, hbuf, ⟨hgrid, -⟩, -⟩ := hs
  refine ⟨embed_length, embed_capacity, fun hlen hcap => ?_⟩
  exact ⟨_, embed_ok hlen hcap, embed_gridEmbeds hbuf hgrid hlen, rfl⟩

/-- Settles O30: its two cases are those of the check that the grid's bits fit in `BIT[]`. -/
theorem extractReadsEveryPixel : Obligations.ExtractReadsEveryPixel := by
  refine ⟨decode_encode .extract, fun s hs => ?_⟩
  obtain ⟨-, ⟨-, hbit⟩, -⟩ := hs
  exact ⟨extract_length, fun hcap => ⟨_, extract_ok hcap, writeBits_holdsGridBits hbit hcap, rfl⟩⟩

/-! ### The low bits of a grid by raster index (R71) -/

theorem blueWith_getLsbD_zero (v : Byte) (b : Bool) : (blueWith v b).getLsbD 0 = b := by
  simp [blueWith]

/-- Embedding replaces the low bits of the first `m` pixels and leaves the others as they were. -/
theorem gridEmbeds_lowBitAt {bits : Nat → Bool} {m : Nat} {g g' : Grid} (hemb : gridEmbeds bits m g g') {k : Nat}
    (hk : k < g.w.toNat * g.h.toNat) : lowBitAt g' k = if k < m then bits k else lowBitAt g k := by
  obtain ⟨-, hh, hblue, -⟩ := hemb
  have ⟨hx, hy⟩ := raster_inGrid hk
  rw [lowBitAt, hh, hblue (k / g.h.toNat) hx (k % g.h.toNat) hy, Nat.div_add_mod']
  split
  · exact blueWith_getLsbD_zero _ _
  · rfl

/-- The entries of `BIT[]` that hold the grid's bits, by raster index. -/
theorem holdsGridBits_getElem? {s t : State} (hbits : holdsGridBits s t) {k : Nat}
    (hk : k < s.grid.w.toNat * s.grid.h.toNat) : t.bit[k]? = some (lowBitAt s.grid k) := by
  obtain ⟨-, hpixels, -⟩ := hbits
  have ⟨hx, hy⟩ := raster_inGrid hk
  have hpixel := hpixels (k / s.grid.h.toNat) hx (k % s.grid.h.toNat) hy
  rwa [Nat.div_add_mod'] at hpixel

/-- A command leaves a legal state legal, as the write of its word does. -/
theorem exec_keeps_inv {i : Instr} {s t : State} (hs : s.Inv) (h : exec i s = .next t) : t.Inv :=
  runCommand_keeps_inv hs ((runCommand_of_decode (decode_encode i) s).trans h)

/-- Settles O40: `EXTRACT` reads the low bits of the grid that `EMBED` wrote, which are the embedded bits and, beyond
them, the former low bits. -/
theorem extractAfterEmbedGivesTheBits : Obligations.ExtractAfterEmbedGivesTheBits := by
  intro s hs hfit hcap
  obtain ⟨-, hembedSpec⟩ := embedWritesTheLowBlueBits
  obtain ⟨-, -, hembedOk⟩ := hembedSpec s hs
  obtain ⟨t, hembed, hgrid, ht⟩ := hembedOk (hfit.trans hcap) fun _ => hfit
  rw [Nat.min_eq_left hfit] at hgrid
  have ⟨hw, hh, _⟩ := hgrid
  have hsize : t.grid.w.toNat * t.grid.h.toNat = s.grid.w.toNat * s.grid.h.toNat := by rw [hw, hh]
  have hroom : nBytes t = nBytes s := congrArg (·.cfg.nBytes.toNat) ht
  obtain ⟨-, hextractSpec⟩ := extractReadsEveryPixel
  obtain ⟨-, hextractOk⟩ := hextractSpec t (exec_keeps_inv hs hembed)
  obtain ⟨u, hextract, hbits, hu⟩ := hextractOk (by rwa [hsize, hroom])
  have ⟨hlen, _⟩ := hbits
  have hread : ∀ k < s.grid.w.toNat * s.grid.h.toNat,
      u.bit[k]? = some (if k < s.bitLen.toNat then bitAt s k else lowBitAt s.grid k) := fun k hk => by
    rw [holdsGridBits_getElem? hbits (hsize.symm ▸ hk), gridEmbeds_lowBitAt hgrid hk]
  refine ⟨t, u, hembed, hextract, congrArg (·.status.err) ht, congrArg (·.status.err) hu, hlen.trans hsize,
    fun k hk => ?_, fun k hge hlt => ?_⟩
  · rw [hread k (hk.trans_le hfit), if_pos hk]
  · rw [hread k hlt, if_neg (Nat.not_lt.mpr hge)]

end Sys2Proof.Machine
end

section
/-! PROOFS. The composed commands (42_composed.md): what `HIDE`, `REVEAL` and `CAPCHECK` do, `REVEAL` after `HIDE`, and
that no command touches more of the grid than the low blue bits. -/

namespace Sys2Proof.Machine

/-! ### `HIDE` (R72, R79) -/

theorem requiredPixels_of_pos {n : Nat} (hn : 0 < n) : requiredPixels n = 8 * (n + 1) :=
  if_neg (Nat.ne_of_gt hn)

/-- Settles O31: its four cases are those of the message operand and of the strict capacity check; the result is the
frame, in `BIT[]` and in the grid. -/
theorem hideFramesThenEmbeds : Obligations.HideFramesThenEmbeds := by
  refine ⟨decode_encode .hide, fun s hs => ?_⟩
  obtain ⟨hcfg, hbuf, ⟨hgrid, -⟩, -⟩ := hs
  have ⟨hmsg, _⟩ := hbuf
  refine ⟨hide_length, fun h _ hi => hide_encoding hmsg h hi, fun h hlegal hstrict hpos hcap => ?_,
    fun h hlegal hcap => ?_⟩
  · rw [← requiredPixels_of_pos hpos] at hcap ⊢
    exact hide_capacity hmsg h hlegal hstrict hcap
  · have hroom : s.strict = true → requiredPixels s.msgLen.toNat ≤ capacity s := fun hstrict => by
      rcases Nat.eq_zero_or_pos s.msgLen.toNat with hzero | hpos
      · rw [hzero]; exact Nat.zero_le _
      · rw [requiredPixels_of_pos hpos]; exact hcap hstrict hpos
    have hframe := writeBits_framesMessage hcfg hbuf h
    have ⟨hlen, _⟩ := hframe
    have hembeds := hide_gridEmbeds hcfg hbuf hgrid h
    rw [hide_ok hmsg h hlegal hroom]
    refine ⟨_, rfl, hframe, ?_, ?_⟩
    · exact hlen.symm ▸ hembeds
    · simp only [complete_bitLen, embedBits_bitLen, hlen]
      rfl

/-- Settles O45: of the frame that `HIDE` leaves in `BIT[]` the grid takes as many bits as it has pixels. -/
theorem overflowEmbedsThePrefix : Obligations.OverflowEmbedsThePrefix := by
  intro s hs hstrict hlen hlegal hpos hover
  obtain ⟨-, hspec⟩ := hideFramesThenEmbeds
  obtain ⟨-, -, -, hok⟩ := hspec s hs
  obtain ⟨t, hhide, hframe, hgrid, ht⟩ := hok hlen hlegal fun hon => absurd (hstrict.symm.trans hon) Bool.false_ne_true
  have ⟨hbits, _⟩ := hframe
  have hlt : s.grid.w.toNat * s.grid.h.toNat < t.bitLen.toNat := by
    rw [hbits, if_neg (Nat.ne_of_gt hpos)]; exact hover
  rw [Nat.min_eq_right hlt.le] at hgrid
  refine ⟨t, hhide, (congrArg (·.status.trunc) ht).trans (decide_eq_true hlt), congrArg (·.status.err) ht, hframe,
    hgrid, fun k hk => ?_⟩
  rw [gridEmbeds_lowBitAt hgrid hk, if_pos hk]

/-! ### `REVEAL` (R74) -/

/-- The extracted bits, written, are what `BIT[0 .. BIT_LEN-1]` holds. -/
theorem take_bitLen_writeBits_extractedBits {s : State} (hb : s.bit.length = 8 * nBytes s)
    (h : capacity s ≤ 8 * nBytes s) :
    (writeBits (extractedBits s) s).bit.take (writeBits (extractedBits s) s).bitLen.toNat = extractedBits s := by
  rw [writeBits_bitLen, length_extractedBits, capacityWord_toNat]
  exact take_overwrite_extractedBits hb h

/-- `REVEAL` where the grid fits `BIT[]` deframes the extracted bits. -/
theorem reveal_deframes_extractedBits {s : State} (hb : s.bit.length = 8 * nBytes s) (h : capacity s ≤ 8 * nBytes s) :
    exec .reveal s = .next (complete (deframe (extractedBits s)).2 false false
      (writeMessage (deframe (extractedBits s)).1 (writeBits (extractedBits s) s))) := by
  rw [reveal_ok h, take_overwrite_extractedBits hb h]

/-- The characters that `REVEAL` finds fit in `MSG[]`. -/
theorem reveal_holdsMessage {s : State} (hbuf : buffersSized s) (h : capacity s ≤ 8 * nBytes s) :
    holdsMessage (deframe (extractedBits s)).1 s
      (writeMessage (deframe (extractedBits s)).1 (writeBits (extractedBits s) s)) := by
  obtain ⟨hmsg, -⟩ := hbuf
  have hle := length_deframe_le (extractedBits s)
  rw [length_extractedBits] at hle
  have hlt : nBytes s < 2 ^ 24 := nBytes_lt s
  exact writeMessage_holdsMessage (s := writeBits (extractedBits s) s) _ (by rw [writeBits_msg]; omega) (by omega)

/-- Settles O32: its two cases are those of the check that the grid's bits fit in `BIT[]`. -/
theorem revealExtractsThenDeframes : Obligations.RevealExtractsThenDeframes := by
  refine ⟨decode_encode .reveal, fun s hs => ?_⟩
  obtain ⟨-, hbuf, -⟩ := hs
  have ⟨_, hbit⟩ := hbuf
  refine ⟨reveal_length, fun h => ⟨_, reveal_deframes_extractedBits hbit h, ?_⟩⟩
  have htake := take_bitLen_writeBits_extractedBits hbit h
  simp only [complete_bit, complete_bitLen, writeMessage_bit, writeMessage_bitLen, htake]
  exact ⟨writeBits_holdsGridBits hbit h, reveal_holdsMessage hbuf h, rfl⟩

/-! ### `CAPCHECK` (R76) -/

/-- In strict mode the capacity decides whether a `HIDE` of a legal message raises `CAPACITY_EXCEEDED` (R84). -/
theorem hide_strict_err_ne_capacityExceeded_iff {s u : State} (hhide : exec .hide s = .next u)
    (hmsg : s.msg.length = nBytes s) (hstrict : s.strict = true) (h : s.msgLen.toNat ≤ nBytes s - 1)
    (hlegal : messageLegal s) :
    u.status.err ≠ .capacityExceeded ↔ requiredPixels s.msgLen.toNat ≤ capacity s := by
  by_cases hfit : requiredPixels s.msgLen.toNat ≤ capacity s
  · cases (hide_ok hmsg h hlegal fun _ => hfit).symm.trans hhide
    simp [hfit]
  · cases (hide_capacity hmsg h hlegal hstrict (Nat.lt_of_not_le hfit)).symm.trans hhide
    simp [hfit]

/-- Settles O33: `FITS` is the comparison that the strict capacity check of `HIDE` makes. -/
theorem capcheckComparesRequiredWithAvailable : Obligations.CapcheckComparesRequiredWithAvailable := by
  refine ⟨decode_encode .capcheck, fun s => ⟨capcheck_length, fun h => ?_, fun t u hs h hlegal hcheck hhide => ?_⟩⟩
  · have hreq : (BitVec.ofNat 32 (requiredPixels s.msgLen.toNat)).toNat = requiredPixels s.msgLen.toNat := by
      rw [BitVec.toNat_ofNat, Nat.mod_eq_of_lt (requiredPixels_lt h)]
    refine ⟨_, capcheck_ok h, hreq, ?_⟩
    simp only [complete_reqPix, hreq]
    rfl
  · obtain ⟨-, ⟨hmsg, -⟩, -⟩ := hs
    cases (capcheck_ok h).symm.trans hcheck
    rw [hide_strict_err_ne_capacityExceeded_iff hhide hmsg rfl h hlegal]
    exact decide_eq_true_iff

/-! ### `HIDE` of the empty message (R78) -/

theorem hide_empty {s : State} (hmsg : s.msg.length = nBytes s) (h : s.msgLen = 0) :
    exec .hide s = .next (complete false false false { s with bitLen := 0 }) := by
  have hbytes : messageBytes s = [] := by simp [messageBytes, messageWords, h]
  have hzero : s.msgLen.toNat = 0 := by rw [h]; rfl
  rw [hide_ok hmsg (by omega) (fun i hi => by omega) (fun _ => by rw [hzero]; exact Nat.zero_le _), hbytes, hzero]
  simp [frame, writeBits, embedBits, embedFrom, requiredPixels, truncFlag]

/-- Settles O44: the frame of the empty message has no bits, so `REVEAL` finds the grid as it was. -/
theorem emptyMessageLeavesTheGrid : Obligations.EmptyMessageLeavesTheGrid := by
  intro s hs hempty
  have ⟨_, ⟨hmsg, hbit⟩, _⟩ := hs
  refine ⟨_, hide_empty hmsg hempty, rfl, rfl, rfl, rfl, rfl, fun hcap => ?_⟩
  exact ⟨_, reveal_deframes_extractedBits hbit hcap, writeBits_holdsGridBits hbit hcap⟩

/-! ### `REVEAL` after `HIDE` (R77) -/

theorem getElem?_extractedBits_eq_lowBitAt {s : State} {k : Nat} (hk : k < capacity s) :
    (extractedBits s)[k]? = some (lowBitAt s.grid k) := by
  rw [extractedBits, List.getElem?_map, List.getElem?_range hk]
  rfl

/-- Bits that fit in the grid are the first ones extracted after they were embedded. -/
theorem take_extractedBits_embedBits {s : State} (hg : s.grid.WellFormed s.cfg.hasAlpha) {bits : List Bool}
    (hfit : bits.length ≤ capacity s) : (extractedBits (embedBits bits s)).take bits.length = bits := by
  have hembeds := embedFrom_gridEmbeds hg bits hfit
  apply List.ext_getElem?
  intro k
  rw [List.getElem?_take]
  split
  · rename_i hk
    have hcap : k < capacity s := hk.trans_le hfit
    rw [getElem?_extractedBits_eq_lowBitAt (by rwa [capacity_embedBits]), embedBits_grid,
      gridEmbeds_lowBitAt hembeds hcap, if_pos hk, List.getD_eq_getElem?_getD, List.getElem?_eq_getElem hk, Option.getD_some]
  · rename_i hk
    exact (List.getElem?_eq_none (Nat.le_of_not_lt hk)).symm

/-- The code words of a state that holds the message `m` are its characters. -/
theorem msgAt_of_holds {s : State} {m : List Byte} (hm : ∀ i < m.length, s.msg[i]? = m[i]?.map (BitVec.setWidth 32))
    {i : Nat} (hi : i < m.length) : msgAt s i = m[i].setWidth 32 := by
  rw [msgAt, List.getD_eq_getElem?_getD, hm i hi, List.getElem?_eq_getElem hi]
  rfl

theorem messageLegal_of_holds {s : State} {m : List Byte} (hlen : s.msgLen.toNat = m.length)
    (hm : ∀ i < m.length, s.msg[i]? = m[i]?.map (BitVec.setWidth 32)) : messageLegal s := fun i hi => by
  have hlt := m[i].isLt
  rw [msgAt_of_holds hm (hlen ▸ hi), BitVec.toNat_setWidth]
  omega

theorem messageBytes_of_holds {s : State} {m : List Byte} (hs : s.msg.length = nBytes s)
    (hlen : s.msgLen.toNat = m.length) (hle : m.length ≤ nBytes s)
    (hm : ∀ i < m.length, s.msg[i]? = m[i]?.map (BitVec.setWidth 32)) : messageBytes s = m := by
  have hbytes : (messageBytes s).length = m.length := (length_messageBytes hs (hlen ▸ hle)).trans hlen
  refine List.ext_getElem hbytes fun i h hi => ?_
  apply Option.some.inj
  rw [← List.getElem?_eq_getElem h, getElem?_messageBytes hs (hlen ▸ hle) (hlen ▸ hi), msgAt_of_holds hm hi]
  simp

/-- After `HIDE` of a message whose frame fits, the first bits to extract are that frame. -/
theorem hide_embeds_frame {s : State} {m : List Byte} (hs : s.Inv) (hle : m.length ≤ nBytes s - 1)
    (hlen : s.msgLen.toNat = m.length) (hm : ∀ i < m.length, s.msg[i]? = m[i]?.map (BitVec.setWidth 32))
    (hfit : requiredPixels m.length ≤ capacity s) :
    ∃ t, exec .hide s = .next t ∧ capacity t = capacity s ∧ nBytes t = nBytes s ∧
      (extractedBits t).take (frame m).length = frame m := by
  obtain ⟨-, ⟨hmsg, -⟩, ⟨hgrid, -⟩, -⟩ := hs
  have hframe : (frame m).length ≤ capacity s := (length_frame m).trans_le hfit
  have hhide := hide_ok hmsg (hlen ▸ hle) (messageLegal_of_holds hlen hm) fun _ => hlen ▸ hfit
  rw [messageBytes_of_holds hmsg hlen (by omega) hm, List.take_of_length_le hframe] at hhide
  refine ⟨_, hhide, ?_, rfl, take_extractedBits_embedBits (s := writeBits (frame m) s) hgrid hframe⟩
  rw [capacity_complete, capacity_embedBits, capacity_writeBits]

/-- Settles O43: `REVEAL` extracts the frame that `HIDE` embedded, and deframing inverts framing. -/
theorem hideThenRevealRoundTrip : Obligations.HideThenRevealRoundTrip := by
  intro s m hs hpos hle hne hlen hm hfit hcap
  obtain ⟨t, hhide, hcapt, hnt, hprefix⟩ :=
    hide_embeds_frame hs hle hlen hm ((requiredPixels_of_pos hpos).trans_le hfit)
  obtain ⟨-, hbuf, -⟩ := exec_keeps_inv hs hhide
  have ⟨_, hbit⟩ := hbuf
  have hroom : capacity t ≤ 8 * nBytes t := by rw [hcapt, hnt]; exact hcap
  have hreveal := reveal_deframes_extractedBits hbit hroom
  have hholds := reveal_holdsMessage hbuf hroom
  have hdeframe : deframe (extractedBits t) = (m, true) := by
    obtain ⟨-, hinverts⟩ := deframeInvertsFrame
    rw [← List.take_append_drop (frame m).length (extractedBits t), hprefix]
    exact hinverts m _ hpos hne
  rw [hdeframe] at hreveal hholds
  obtain ⟨hlen', hm', -⟩ := hholds
  exact ⟨t, _, hhide, hreveal, hlen', hm', rfl, rfl⟩

/-! ### `REVEAL` on other grids (R80) -/

/-- A group of the extracted bits with a low bit 1 in it is no terminator. -/
theorem group_extractedBits_ne_terminator {s : State} {k j : Nat} (hj : j < 8) (hk : 8 * k + j < capacity s)
    (hbit : lowBitAt s.grid (8 * k + j) = true) : ((extractedBits s).drop (8 * k)).take 8 ≠ terminator := by
  intro hgroup
  have hentry : (((extractedBits s).drop (8 * k)).take 8)[j]? = some true := by
    rw [List.getElem?_take_of_lt hj, List.getElem?_drop, getElem?_extractedBits_eq_lowBitAt hk, hbit]
  rw [hgroup, terminator, List.getElem?_replicate_of_lt hj] at hentry
  simp at hentry

/-- Bits that are all 0 begin with a terminator, if they make a whole group. -/
theorem deframe_replicate_false (n : Nat) : deframe (List.replicate n false) = ([], decide (8 ≤ n)) := by
  by_cases hn : 8 ≤ n
  · obtain ⟨k, rfl⟩ := Nat.exists_eq_add_of_le hn
    rw [List.replicate_add, decide_eq_true hn]
    exact deframe_of_terminated (m := []) (by simp) _
  · rw [decide_eq_false hn]
    exact deframe_of_lt_eight (by simpa using hn)

theorem extractedBits_of_even {s : State} (h : ∀ k < capacity s, lowBitAt s.grid k = false) :
    extractedBits s = List.replicate (capacity s) false := by
  refine List.eq_replicate_iff.mpr ⟨length_extractedBits s, fun b hb => ?_⟩
  obtain ⟨k, hk⟩ := List.getElem?_of_mem hb
  have hlt : k < capacity s := length_extractedBits s ▸ (List.getElem?_eq_some_iff.mp hk).1
  rw [getElem?_extractedBits_eq_lowBitAt hlt, h k hlt] at hk
  exact (Option.some.inj hk).symm

/-- Settles O46: in the first grid no group is a terminator, in the second one every group is. -/
theorem revealOnGridsNeverWritten : Obligations.RevealOnGridsNeverWritten := by
  intro s hs hcap
  obtain ⟨-, hbuf, -⟩ := hs
  have ⟨_, hbit⟩ := hbuf
  have hreveal := reveal_deframes_extractedBits hbit hcap
  obtain ⟨hlen, -, -⟩ := reveal_holdsMessage hbuf hcap
  refine ⟨fun hgroups => ?_, fun heven => ?_⟩
  · have hflag : (deframe (extractedBits s)).2 = false := deframe_flag_of_no_terminator fun k hk => by
      rw [length_extractedBits] at hk
      obtain ⟨j, hj, hlow⟩ := hgroups k hk
      exact group_extractedBits_ne_terminator hj (by omega) hlow
    have hcount := (deframe_flag_eq_false_iff _).mp hflag
    rw [length_extractedBits] at hcount
    exact ⟨_, hreveal, hlen.trans hcount, hflag, rfl⟩
  · rw [extractedBits_of_even heven, deframe_replicate_false] at hreveal
    exact ⟨_, hreveal, rfl, rfl, rfl⟩

/-! ### What a command may change of the grid (R81) -/

/-- `g'` is `g` but for the low blue bits of its pixels. -/
def keepsAllButLowBlueBits (g g' : Grid) : Prop :=
  g'.w = g.w ∧ g'.h = g.h ∧
  (∀ a, (∀ x < g.w.toNat, ∀ y < g.h.toNat, a ≠ pixKey x y .blue) → readCell g'.cells a = readCell g.cells a) ∧
  ∀ x < g.w.toNat, ∀ y < g.h.toNat, g'.channel x y .blue &&& 0xFE#8 = g.channel x y .blue &&& 0xFE#8

theorem keepsAllButLowBlueBits_refl (g : Grid) : keepsAllButLowBlueBits g g :=
  ⟨rfl, rfl, fun _ _ => rfl, fun _ _ _ _ => rfl⟩

/-- Replacing the lowest bit of a blue value keeps its bits 7:1. -/
theorem blueWith_and (v : Byte) (b : Bool) : blueWith v b &&& 0xFE#8 = v &&& 0xFE#8 := by
  revert v b
  decide

/-- Embedding as many bits as the grid has pixels, or fewer, touches only low blue bits. -/
theorem gridEmbeds_keepsAllButLowBlueBits {bits : Nat → Bool} {m : Nat} {g g' : Grid} (hemb : gridEmbeds bits m g g')
    (hm : m ≤ g.w.toNat * g.h.toNat) : keepsAllButLowBlueBits g g' := by
  obtain ⟨hw, hh, hblue, hother⟩ := hemb
  refine ⟨hw, hh, fun a ha => hother a fun k hk => ?_, fun x hx y hy => ?_⟩
  · have ⟨hx, hy⟩ := raster_inGrid (hk.trans_le hm)
    exact ha _ hx _ hy
  · rw [hblue x hx y hy]
    split
    · exact blueWith_and _ _
    · rfl

theorem embedFrom_take_keepsAllButLowBlueBits {al : Bool} {g : Grid} (hg : g.WellFormed al) (bits : List Bool) :
    keepsAllButLowBlueBits g (embedFrom al 0 (bits.take (g.w.toNat * g.h.toNat)) g) :=
  have hle : (bits.take (g.w.toNat * g.h.toNat)).length ≤ g.w.toNat * g.h.toNat := List.length_take_le _ _
  gridEmbeds_keepsAllButLowBlueBits (embedFrom_gridEmbeds hg _ hle) hle

/-- What a command that passes its checks leaves of the grid. -/
theorem commandResult_keepsAllButLowBlueBits {s : State} (hg : s.grid.WellFormed s.cfg.hasAlpha) (i : Instr) :
    keepsAllButLowBlueBits s.grid (commandResult i s).grid := by
  cases i with
  | embed | hide => exact embedFrom_take_keepsAllButLowBlueBits hg _
  | fenc | fdec | extract | reveal | capcheck => exact keepsAllButLowBlueBits_refl _

/-- Settles O49: a command raises an error and leaves the grid, or passes its checks. -/
theorem commandsTouchOnlyLowBlueBits : Obligations.CommandsTouchOnlyLowBlueBits := by
  intro s t i hs h
  obtain ⟨-, -, ⟨hgrid, -⟩, -⟩ := hs
  have hspec : keepsAllButLowBlueBits s.grid t.grid ∧ (i ≠ .embed → i ≠ .hide → t.grid = s.grid) := by
    rcases exec_cases i s with ⟨r, -, hexec⟩ | ⟨-, hexec⟩ <;> cases hexec.symm.trans h
    · exact ⟨keepsAllButLowBlueBits_refl _, fun _ _ => rfl⟩
    · exact ⟨commandResult_keepsAllButLowBlueBits hgrid i, fun hembed hhide => commandResult_grid hembed hhide s⟩
  obtain ⟨⟨hw, hh, hother, hblue⟩, hkept⟩ := hspec
  exact ⟨hw, hh, hother, hblue, hkept⟩

end Sys2Proof.Machine
end

section
/-! PROOFS. Entry and completion of an error (60_exceptions.md R88, R89, R91): what every write to `CMD` leaves, and that
every step has a next state. -/

namespace Sys2Proof.Machine

/-! ### What a command that passes its checks leaves (R89) -/

@[simp] theorem commandResult_err (i : Instr) (s : State) : (commandResult i s).status.err = .none := by
  cases i <;> rfl

@[simp] theorem commandResult_errInfo (i : Instr) (s : State) : (commandResult i s).errInfo = 0 := by
  cases i <;> rfl

@[simp] theorem commandResult_sticky (i : Instr) (s : State) :
    (commandResult i s).status.sticky = s.status.sticky := by
  cases i <;> rfl

theorem raise_outsideCommandKept (e : ErrCode) (info : Word) (s : State) : outsideCommandKept s (raise e info s) :=
  ⟨rfl, rfl, rfl, rfl, rfl, rfl, rfl⟩

theorem commandResult_outsideCommandKept (i : Instr) (s : State) : outsideCommandKept s (commandResult i s) := by
  cases i <;> exact ⟨rfl, rfl, rfl, rfl, rfl, rfl, rfl⟩

/-! ### A write to `CMD` -/

/-- Errors are precise (R88). -/
theorem eq_raise_of_runCommand {s t : State} {w : Word} (h : runCommand w s = .next t) (hne : t.status.err ≠ .none) :
    t = raise t.status.err t.errInfo s := by
  rcases runCommand_cases w s with ⟨r, -, hrun⟩ | ⟨i, -, -, hrun⟩ <;> cases hrun.symm.trans h
  · rfl
  · exact absurd (commandResult_err i s) hne

/-- Settles O20: what a write to `CMD` raises is its whole effect. -/
theorem errorsArePrecise : Obligations.ErrorsArePrecise :=
  ⟨fun _ _ _ => rfl, fun _ _ _ => eq_raise_of_runCommand⟩

/-- Settles O21: a write to `CMD` without error is a command that passed its checks. -/
theorem completionClearsErrInfoAndKeepsSticky : Obligations.CompletionClearsErrInfoAndKeepsSticky := by
  refine ⟨fun _ _ _ _ => rfl, fun s t w h => ?_⟩
  rcases runCommand_cases w s with ⟨r, hr, hrun⟩ | ⟨i, -, -, hrun⟩ <;> cases hrun.symm.trans h
  · exact ⟨fun hnone => absurd hnone hr, raise_outsideCommandKept r.err r.info s⟩
  · exact ⟨fun _ => ⟨commandResult_errInfo i s, commandResult_sticky i s⟩, commandResult_outsideCommandKept i s⟩

/-! ### Every step has a next state (R91) -/

theorem exists_next_of_runCommand (w : Word) (s : State) : ∃ t, runCommand w s = .next t := by
  rcases runCommand_cases w s with ⟨r, -, hrun⟩ | ⟨i, -, -, hrun⟩ <;> exact ⟨_, hrun⟩

theorem exists_next_of_memWrite (a v : Word) (s : State) : ∃ t, memWrite a v s = .next t := by
  rcases memWrite_cases a v s with
    hw | ⟨-, hw⟩ | ⟨-, hw⟩ | ⟨-, -, hw⟩ | ⟨-, hw⟩ | ⟨-, hw⟩ | ⟨i, -, -, hw⟩ | ⟨j, -, -, hw⟩
  case inr.inr.inl => exact hw ▸ exists_next_of_runCommand v s
  all_goals exact ⟨_, hw⟩

theorem exists_next_of_runHostOp (op : HostOp) (s : State) : ∃ t, runHostOp op s = .next t := by
  cases op with
  | wr a v => exact exists_next_of_memWrite a v (advance s)
  | rd | brset | brclr | jmp | halt | attach | copyGrid | attachCopy | reset => exact ⟨_, rfl⟩

/-- Settles O22: a step is the host's next operation, or nothing once the program is over. -/
theorem nothingStopsTheBlock : Obligations.NothingStopsTheBlock := by
  intro s
  cases hop : s.prog[s.hpc]? with
  | none => exact ⟨s, step_of_none hop⟩
  | some op => exact step_of_op hop ▸ exists_next_of_runHostOp op s

end Sys2Proof.Machine
end

section
/-! PROOFS. Which error a command reports (60_exceptions.md R83 to R85, R90): the checks in their order, each failing
check with what is raised, and the error code of every command as the first check that fails. -/

namespace Sys2Proof.Machine

/-! ### The conditions (R83 to R85) -/

/-- The length that the length check of a command looks at (R85). -/
def checkedLength (i : Instr) (s : State) : Nat :=
  match i with
  | .fenc | .hide | .capcheck => s.msgLen.toNat
  | .fdec | .embed => s.bitLen.toNat
  | .extract | .reveal => capacity s

/-- The greatest length that the length check of a command lets pass (R85). -/
def lengthLimit (i : Instr) (s : State) : Nat :=
  match i with
  | .fenc | .hide | .capcheck => nBytes s - 1
  | .fdec | .embed | .extract | .reveal => 8 * nBytes s

/-- The commands that frame the message and therefore check its code words (R83). -/
abbrev framesItsMessage (i : Instr) : Prop := i = .fenc ∨ i = .hide

/-- The number of bits that a command embeds, 0 for those that embed none (R84). -/
def embeddedCount (i : Instr) (s : State) : Nat :=
  match i with
  | .embed => s.bitLen.toNat
  | .hide => requiredPixels s.msgLen.toNat
  | .fenc | .fdec | .extract | .reveal | .capcheck => 0

theorem embeddedCount_eq_zero {i : Instr} (hembed : i ≠ .embed) (hhide : i ≠ .hide) (s : State) :
    embeddedCount i s = 0 := by
  cases i with
  | embed => exact absurd rfl hembed
  | hide => exact absurd rfl hhide
  | fenc | fdec | extract | reveal | capcheck => rfl

theorem eq_embed_or_hide_of_embeddedCount_pos {i : Instr} {s : State} (h : 0 < embeddedCount i s) :
    i = .embed ∨ i = .hide := by
  by_contra hnot
  obtain ⟨hembed, hhide⟩ := not_or.mp hnot
  exact Nat.ne_of_gt h (embeddedCount_eq_zero hembed hhide s)

/-- The error a command reports: that of the first check that fails (R90). -/
def reportedError (i : Instr) (s : State) : ErrCode :=
  if lengthLimit i s < checkedLength i s then .lengthError
  else if framesItsMessage i ∧ ¬ messageLegal s then .encodingError
  else if s.strict = true ∧ capacity s < embeddedCount i s then .capacityExceeded
  else .none

/-- An index of a code word fits in `ERR_INFO` (R83). -/
theorem lowestIllegal_word_toNat {s : State} {k : Nat} (hk : lowestIllegal s k) : (BitVec.ofNat 32 k).toNat = k := by
  obtain ⟨hlt, -⟩ := hk
  rw [BitVec.toNat_ofNat, Nat.mod_eq_of_lt (hlt.trans s.msgLen.isLt)]

/-! ### What a command does at its first failing check -/

theorem exec_lengthError {i : Instr} {s : State} (h : lengthLimit i s < checkedLength i s) :
    ∃ info, exec i s = .next (raise .lengthError info s) := by
  cases i with
  | fenc => exact ⟨_, fenc_length h⟩
  | fdec => exact ⟨_, fdec_length h⟩
  | embed => exact ⟨_, embed_length h⟩
  | extract => exact ⟨_, extract_length h⟩
  | hide => exact ⟨_, hide_length h⟩
  | reveal => exact ⟨_, reveal_length h⟩
  | capcheck => exact ⟨_, capcheck_length h⟩

/-- The frame of a message that passes the length check is as long as `CAPCHECK` computes (R58, R76). -/
theorem length_frame_messageBytes {s : State} (hmsg : s.msg.length = nBytes s) (hlen : s.msgLen.toNat ≤ nBytes s - 1) :
    (frame (messageBytes s)).length = requiredPixels s.msgLen.toNat := by
  rw [length_frame, length_messageBytes hmsg (by omega)]

section
variable {i : Instr} {s : State} (hmsg : s.msg.length = nBytes s) (hlen : checkedLength i s ≤ lengthLimit i s)
include hmsg hlen

theorem exec_encodingError (hi : framesItsMessage i) {k : Nat} (hk : lowestIllegal s k) :
    exec i s = .next (raise .encodingError (BitVec.ofNat 32 k) s) := by
  rcases hi with rfl | rfl
  · exact fenc_encoding hmsg hlen hk
  · exact hide_encoding hmsg hlen hk

theorem exec_capacityExceeded (hlegal : framesItsMessage i → messageLegal s) (hstrict : s.strict = true)
    (hcap : capacity s < embeddedCount i s) :
    exec i s = .next (raise .capacityExceeded (BitVec.ofNat 32 (embeddedCount i s)) s) := by
  rcases eq_embed_or_hide_of_embeddedCount_pos (Nat.zero_lt_of_lt hcap) with rfl | rfl
  · have hinfo : BitVec.ofNat 32 (embeddedCount .embed s) = s.bitLen := by simp [embeddedCount]
    exact hinfo ▸ embed_capacity hlen hstrict hcap
  · exact hide_capacity hmsg hlen (hlegal (.inr rfl)) hstrict hcap

theorem exec_completes (hlegal : framesItsMessage i → messageLegal s)
    (hcap : s.strict = true → embeddedCount i s ≤ capacity s) : exec i s = .next (commandResult i s) := by
  cases i with
  | fenc => exact fenc_ok hmsg hlen (hlegal (.inl rfl))
  | fdec => exact fdec_ok hlen
  | embed => exact embed_ok hlen hcap
  | extract => exact extract_ok hlen
  | hide =>
    simp only [commandResult, length_frame_messageBytes hmsg hlen]
    exact hide_ok hmsg hlen (hlegal (.inr rfl)) hcap
  | reveal => exact reveal_ok hlen
  | capcheck => exact capcheck_ok hlen

/-- A command that completes sets `TRUNC` exactly when more bits were to be embedded than there are pixels (R84). -/
theorem commandResult_trunc :
    (commandResult i s).status.trunc = decide (capacity s < embeddedCount i s) := by
  cases i with
  | embed => rfl
  | hide =>
    have hcount : (frame (messageBytes s)).length = requiredPixels s.msgLen.toNat :=
      length_frame_messageBytes hmsg hlen
    exact congrArg (truncFlag · (capacity s)) hcount
  | fenc | fdec | extract | reveal | capcheck => simp [commandResult, embeddedCount]

/-- Too many bits are no error when `STRICT = 0` (R84). -/
theorem exec_truncates (hlegal : framesItsMessage i → messageLegal s) (hstrict : s.strict = false)
    (hover : capacity s < embeddedCount i s) :
    ∃ t, exec i s = .next t ∧ t.status.err = .none ∧ t.status.trunc = true := by
  refine ⟨_, exec_completes hmsg hlen hlegal fun hon => ?_, commandResult_err i s, ?_⟩
  · exact absurd (hstrict.symm.trans hon) Bool.false_ne_true
  · rw [commandResult_trunc hmsg hlen, decide_eq_true hover]

/-- Bits that the grid has room for are no error in either mode (R84). -/
theorem exec_fits (hlegal : framesItsMessage i → messageLegal s) (hroom : embeddedCount i s ≤ capacity s) :
    ∃ t, exec i s = .next t ∧ t.status.err = .none ∧ t.status.trunc = false := by
  refine ⟨_, exec_completes hmsg hlen hlegal fun _ => hroom, commandResult_err i s, ?_⟩
  rw [commandResult_trunc hmsg hlen, decide_eq_false (Nat.not_lt.mpr hroom)]

end

/-! ### The error a command reports (R90) -/

/-- The checks of a command in their order, as its report shows them. -/
theorem exec_report {i : Instr} {s t : State} (hmsg : s.msg.length = nBytes s) (h : exec i s = .next t) :
    t.status.err = reportedError i s ∧ (t.status.err = .encodingError → lowestIllegal s t.errInfo.toNat) := by
  unfold reportedError
  by_cases hlen : lengthLimit i s < checkedLength i s
  · obtain ⟨info, hexec⟩ := exec_lengthError hlen
    cases hexec.symm.trans h
    exact ⟨(if_pos hlen).symm, nofun⟩
  rw [if_neg hlen]
  have hlen := Nat.le_of_not_lt hlen
  by_cases hchars : framesItsMessage i ∧ ¬ messageLegal s
  · obtain ⟨hi, hillegal⟩ := hchars
    obtain ⟨k, hk⟩ := exists_lowestIllegal hillegal
    cases (exec_encodingError hmsg hlen hi hk).symm.trans h
    exact ⟨(if_pos ⟨hi, hillegal⟩).symm, fun _ => (lowestIllegal_word_toNat hk).symm ▸ hk⟩
  rw [if_neg hchars]
  have hlegal : framesItsMessage i → messageLegal s := fun hi => by_contra fun hnot => hchars ⟨hi, hnot⟩
  by_cases hcap : s.strict = true ∧ capacity s < embeddedCount i s
  · obtain ⟨hstrict, hover⟩ := hcap
    cases (exec_capacityExceeded hmsg hlen hlegal hstrict hover).symm.trans h
    exact ⟨(if_pos ⟨hstrict, hover⟩).symm, nofun⟩
  · rw [if_neg hcap]
    have hroom : s.strict = true → embeddedCount i s ≤ capacity s := fun hstrict =>
      Nat.le_of_not_lt fun hover => hcap ⟨hstrict, hover⟩
    cases (exec_completes hmsg hlen hlegal hroom).symm.trans h
    exact ⟨commandResult_err i s, fun henc => by simp at henc⟩

/-! ### The statements -/

theorem encode_toNat (i : Instr) : (encode i).toNat = (opcode i).toNat := by
  cases i <;> rfl

/-- Settles O24: the three rows of the table of R85, command by command. -/
theorem lengthErrorsNameTheLength : Obligations.LengthErrorsNameTheLength := by
  intro s
  simp only [List.forall_mem_cons, List.not_mem_nil, false_imp_iff, implies_true, and_true]
  exact ⟨fun h => ⟨fenc_length h, hide_length h, capcheck_length h⟩, fun h => ⟨fdec_length h, embed_length h⟩,
    fun h => ⟨⟨_, extract_length h, rfl, capacityWord_toNat s⟩, ⟨_, reveal_length h, rfl, capacityWord_toNat s⟩⟩⟩

/-- Settles O25: the code words are checked after the length and before any write. -/
theorem encodingErrorNamesTheLowestIndex : Obligations.EncodingErrorNamesTheLowestIndex := by
  intro s k hs hlen hk i hi
  obtain ⟨-, ⟨hmsg, -⟩, -⟩ := hs
  have hframes : framesItsMessage i := by simpa using hi
  have hchecked : checkedLength i s ≤ lengthLimit i s := by rcases hframes with rfl | rfl <;> exact hlen
  exact ⟨_, exec_encodingError hmsg hchecked hframes hk, rfl, lowestIllegal_word_toNat hk⟩

/-- Settles O23: a word that decodes reports its command's first failing check. -/
theorem errorsByPriority : Obligations.ErrorsByPriority := by
  intro s t w hs h
  obtain ⟨-, ⟨hmsg, -⟩, -⟩ := hs
  by_cases hlegal : 1 ≤ w.toNat ∧ w.toNat ≤ 7
  · obtain ⟨i, hi⟩ := exists_decode_of_legal hlegal
    obtain ⟨herr, hlowest⟩ := exec_report hmsg ((runCommand_of_decode hi s).symm.trans h)
    refine ⟨hlowest, ?_⟩
    rw [herr, eq_encode_of_decode hi, encode_toNat]
    -- For the number of each command the conditions that name other numbers fall away.
    cases i <;> simp [reportedError, framesItsMessage, opcode, embeddedCount_eq_zero] <;> rfl
  · obtain ⟨e, he⟩ := decode_eq_error_of_not_legal hlegal
    cases (runCommand_of_decode_error he s).symm.trans h
    exact ⟨nofun, (if_pos hlegal).symm⟩

theorem of_reportedError_eq_capacityExceeded {i : Instr} {s : State} (h : reportedError i s = .capacityExceeded) :
    s.strict = true ∧ capacity s < embeddedCount i s := by
  by_contra hnot
  rw [reportedError, if_neg hnot] at h
  split_ifs at h

/-- `HIDE` embeds as many bits as the frame of a message has that is not empty. -/
theorem embeddedCount_hide_of_pos {s : State} (hpos : 0 < s.msgLen.toNat) :
    embeddedCount .hide s = 8 * (s.msgLen.toNat + 1) :=
  requiredPixels_of_pos hpos

/-- Settles O26: of the two commands that embed bits, each past its earlier checks; another command has no bits to
embed, so it never reports the error. -/
theorem capacityExceededOnlyInStrictMode : Obligations.CapacityExceededOnlyInStrictMode := by
  intro s hs
  obtain ⟨-, ⟨hmsg, -⟩, -⟩ := hs
  have hembed : framesItsMessage .embed → messageLegal s := fun hi => absurd hi (by decide)
  refine ⟨fun hlen hover => ⟨(embed_capacity hlen · hover), (exec_truncates hmsg hlen hembed · hover)⟩,
    fun hlen hfit => exec_fits hmsg hlen hembed hfit, fun hlen hlegal hpos hover => ?_,
    fun hlen hlegal hfit => ?_, fun i t h herr => ?_⟩
  · rw [← embeddedCount_hide_of_pos hpos] at hover ⊢
    refine ⟨fun hstrict => ?_, (exec_truncates hmsg hlen (fun _ => hlegal) · hover)⟩
    refine ⟨_, exec_capacityExceeded hmsg hlen (fun _ => hlegal) hstrict hover, rfl, ?_⟩
    exact Nat.mod_eq_of_lt (requiredPixels_lt hlen)
  · refine exec_fits hmsg hlen (fun _ => hlegal) ?_
    rcases Nat.eq_zero_or_pos s.msgLen.toNat with hzero | hpos
    · simp [embeddedCount, requiredPixels, hzero]
    · rw [embeddedCount_hide_of_pos hpos]
      exact hfit.resolve_left (Nat.ne_of_gt hpos)
  · obtain ⟨hreport, -⟩ := exec_report hmsg h
    obtain ⟨hstrict, hover⟩ := of_reportedError_eq_capacityExceeded (hreport.symm.trans herr)
    refine ⟨hstrict, eq_embed_or_hide_of_embeddedCount_pos (Nat.zero_lt_of_lt hover), ?_⟩
    have hraise := eq_raise_of_runCommand ((runCommand_of_decode (decode_encode i) s).trans h) (by simp [herr])
    exact congrArg (·.grid) hraise

end Sys2Proof.Machine
end

section
/-! PROOFS. Reset (70_reset_and_hazards.md R100 to R103): the fields that every state right after reset holds, what the
host reads from them, and the grid store, which reset leaves alone. -/

namespace Sys2Proof.Machine

theorem step_of_reset {s : State} (h : s.prog[s.hpc]? = some .reset) : step s = .next (advance (resetBlock s)) :=
  step_of_op h

/-- The parameters, the attached grid and the register fields of R101, as reset leaves them. -/
structure HoldsResetValues (c : Config) (g : Grid) (t : State) : Prop where
  cfg : t.cfg = c
  grid : t.grid = g
  strict : t.strict = false
  status : t.status = Status.reset
  errInfo : t.errInfo = 0
  msgLen : t.msgLen = 0
  bitLen : t.bitLen = 0
  reqPix : t.reqPix = 0

theorem fresh_holdsResetValues (c : Config) (g : Grid) : HoldsResetValues c g (State.fresh c g) := by
  constructor <;> rfl

theorem resetBlock_holdsResetValues (s : State) : HoldsResetValues s.cfg s.grid (advance (resetBlock s)) := by
  constructor <;> rfl

/-- The two ways of being right after reset agree on everything the host reads in a register. -/
theorem holdsResetValues_of_justReset {c : Config} {g : Grid} {t : State} (h : justReset c g t) :
    HoldsResetValues c g t := by
  rcases h with rfl | ⟨s, rfl, rfl, hop, hstep⟩
  · exact fresh_holdsResetValues c g
  · cases (step_of_reset hop).symm.trans hstep
    exact resetBlock_holdsResetValues s

theorem statusWord_reset : statusWord Status.reset = 0 := rfl

/-- Settles O1: every register reads its field, and the fields hold their reset values. -/
theorem resetSetsEveryRegister : Obligations.ResetSetsEveryRegister := by
  intro c g t h
  obtain ⟨rfl, rfl, hstrict, hstatus, herrInfo, hmsgLen, hbitLen, hreqPix⟩ := holdsResetValues_of_justReset h
  have hctrl : memRead t 0x2#32 = 0 := (memRead_ctrl t).trans (congrArg bitWord hstrict)
  have hstatusWord : memRead t 0x4#32 = 0 := by rw [memRead_status, hstatus, statusWord_reset]
  rw [memRead_gridW, memRead_gridH]
  exact ⟨memRead_id t, capsWord_toNat t.cfg, hstrict, hctrl, memRead_cmd t, hstatus, hstatusWord,
    (memRead_errInfo t).trans herrInfo, (memRead_msgLen t).trans hmsgLen, (memRead_bitLen t).trans hbitLen,
    BitVec.toNat_setWidth_of_le (by decide), BitVec.toNat_setWidth_of_le (by decide), capacityWord_toNat t,
    (memRead_reqPix t).trans hreqPix⟩

/-- Settles O2: the step at a reset keeps the whole grid, and with it its size and its channels. -/
theorem resetLeavesTheGridStore : Obligations.ResetLeavesTheGridStore := fun s h =>
  have hgrid : (advance (resetBlock s)).grid = s.grid := (resetBlock_holdsResetValues s).grid
  ⟨_, step_of_reset h, hgrid, congrArg Grid.w hgrid, congrArg Grid.h hgrid,
    fun x y c => congrArg (Grid.channel · x y c) hgrid⟩

end Sys2Proof.Machine
end

section
/-! PROOFS. Attaching grids (20_memory.md R47, R112): the grid a list of cells describes, byte by byte, and the host steps
that attach a grid, keep a copy, or attach one again. -/

namespace Sys2Proof.Machine

/-! ### One described cell (log 9) -/

theorem addCell_other (al : Bool) (g : Grid) {p : Host.Cell} {a : Nat} (ha : p.1 ≠ a) :
    readCell (addCell al g p).cells a = readCell g.cells a := by
  unfold addCell
  split
  · exact readCell_writeCell_other _ _ _ _ ha.symm
  · rfl

theorem addCell_same {al : Bool} {g : Grid} (hg : g.WellFormed al) {a : Nat} (ha : keyInGrid al g.w g.h a = true)
    (v : Byte) : readCell (addCell al g (a, v)).cells a = v := by
  obtain ⟨⟨hrising, -⟩, -⟩ := hg
  unfold addCell
  rw [if_pos ha]
  exact readCell_writeCell_same _ _ _ hrising

/-! ### The grid a list of cells describes (log 9) -/

theorem foldl_addCell_size (al : Bool) (cells : List Host.Cell) (g : Grid) :
    (cells.foldl (addCell al) g).w = g.w ∧ (cells.foldl (addCell al) g).h = g.h := by
  induction cells generalizing g with
  | nil => exact ⟨rfl, rfl⟩
  | cons p rest ih => simpa using ih (addCell al g p)

@[simp] theorem buildGrid_w (al : Bool) (w h : BitVec 16) (cells : List Host.Cell) : (buildGrid al w h cells).w = w :=
  (foldl_addCell_size al cells _).1

@[simp] theorem buildGrid_h (al : Bool) (w h : BitVec 16) (cells : List Host.Cell) : (buildGrid al w h cells).h = h :=
  (foldl_addCell_size al cells _).2

/-- Cells that do not describe a byte leave it as it was. -/
theorem foldl_addCell_other (al : Bool) {cells : List Host.Cell} {a : Nat} (ha : ∀ p ∈ cells, p.1 ≠ a) (g : Grid) :
    readCell (cells.foldl (addCell al) g).cells a = readCell g.cells a := by
  induction cells generalizing g with
  | nil => rfl
  | cons p rest ih =>
    obtain ⟨hp, hrest⟩ := List.forall_mem_cons.mp ha
    exact (ih hrest _).trans (addCell_other al g hp)

theorem buildGrid_undescribed (al : Bool) (w h : BitVec 16) {cells : List Host.Cell} {a : Nat}
    (ha : ∀ p ∈ cells, p.1 ≠ a) : readCell (buildGrid al w h cells).cells a = unlistedByte :=
  foldl_addCell_other al ha _

/-- The last description of a byte of the grid is its value. -/
theorem buildGrid_described {al : Bool} {w h : BitVec 16} {a : Nat} (ha : keyInGrid al w h a = true)
    (before : List Host.Cell) (v : Byte) {after : List Host.Cell} (hafter : ∀ p ∈ after, p.1 ≠ a) :
    readCell (buildGrid al w h (before ++ (a, v) :: after)).cells a = v := by
  have hsplit : buildGrid al w h (before ++ (a, v) :: after) =
      after.foldl (addCell al) (addCell al (buildGrid al w h before) (a, v)) := by
    simp only [buildGrid, List.foldl_append, List.foldl_cons]
  rw [hsplit, foldl_addCell_other al hafter]
  exact addCell_same (buildGrid_wellFormed al w h before) (by rwa [buildGrid_w, buildGrid_h]) v

/-! ### The statements -/

/-- Settles O18: the attached grid is the one the list of cells describes. -/
theorem attachReplacesTheGrid : Obligations.AttachReplacesTheGrid := by
  intro s w h cells hop
  refine ⟨_, step_of_op hop, rfl, buildGrid_w _ _ _ _, buildGrid_h _ _ _ _, ?_, fun a => buildGrid_undescribed _ w h⟩
  rintro before after a v rfl hin hafter
  exact buildGrid_described hin before v hafter

theorem attachKept_of_some {s : State} {k : Nat} {g : Grid} (h : s.copies[k]? = some g) :
    attachKept k s = attachGrid g s := by
  simp only [attachKept, h]

theorem attachKept_of_none {s : State} {k : Nat} (h : s.copies[k]? = none) : attachKept k s = s := by
  simp only [attachKept, h]

/-- Settles O19: a copy is attached where there is one. -/
theorem copiesAreKeptAndAttached : Obligations.CopiesAreKeptAndAttached := by
  intro s k g
  have hattach : s.prog[s.hpc]? = some (.attachCopy k) → step s = .next (advance (attachKept k s)) := step_of_op
  refine ⟨step_of_op, fun hop hcopy => ?_, fun hop hnone => ?_⟩
  · rw [hattach hop, attachKept_of_some hcopy]
    rfl
  · rw [hattach hop, attachKept_of_none hnone]
    rfl

end Sys2Proof.Machine
end

section
/-! PROOFS. The composed commands as pairs (42_composed.md R73, R75): `HIDE` is `FENC` then `EMBED`, `REVEAL` is `EXTRACT`
then `FDEC`. The second command of a pair finds in `BIT[0 .. BIT_LEN-1]` what the first one wrote. -/

namespace Sys2Proof.Machine

/-! ### `HIDE` (R73) -/

/-- A command that reports neither of the errors of its message has passed the checks of it (R90). -/
theorem passes_messageChecks {i : Instr} {s : State} (hlen : reportedError i s ≠ .lengthError)
    (henc : reportedError i s ≠ .encodingError) :
    checkedLength i s ≤ lengthLimit i s ∧ (framesItsMessage i → messageLegal s) := by
  have hle : ¬ lengthLimit i s < checkedLength i s := fun h => hlen (if_pos h)
  refine ⟨Nat.le_of_not_lt hle, fun hi => by_contra fun hillegal => henc ?_⟩
  rw [reportedError, if_neg hle, if_pos ⟨hi, hillegal⟩]

/-- A command that reports no error has passed the strict capacity check as well (R90). -/
theorem passes_capacityCheck {i : Instr} {s : State} (h : reportedError i s = .none) (hstrict : s.strict = true) :
    embeddedCount i s ≤ capacity s := by
  by_contra hover
  have hcap : s.strict = true ∧ capacity s < embeddedCount i s := ⟨hstrict, Nat.lt_of_not_le hover⟩
  rw [reportedError, if_pos hcap] at h
  split_ifs at h

/-- What `FENC` leaves in `BIT[0 .. BIT_LEN-1]` is the frame. -/
theorem take_commandResult_fenc {s : State} (hcfg : s.cfg.WellFormed) (hbuf : buffersSized s)
    (hlen : s.msgLen.toNat ≤ nBytes s - 1) :
    (commandResult .fenc s).bit.take (requiredPixels s.msgLen.toNat) = frame (messageBytes s) := by
  obtain ⟨hmsg, hbit⟩ := hbuf
  have hcount := length_frame_messageBytes hmsg hlen
  rw [← hcount]
  exact take_overwrite _ _ (by rw [hcount, hbit]; exact requiredPixels_le hcfg hlen)

theorem commandResult_fenc_bitLen {s : State} (hmsg : s.msg.length = nBytes s) (hlen : s.msgLen.toNat ≤ nBytes s - 1) :
    (commandResult .fenc s).bitLen.toNat = requiredPixels s.msgLen.toNat := by
  have hbits : (commandResult .fenc s).bitLen = BitVec.ofNat 32 (frame (messageBytes s)).length := rfl
  rw [hbits, length_frame_messageBytes hmsg hlen, BitVec.toNat_ofNat, Nat.mod_eq_of_lt (requiredPixels_lt hlen)]

/-- `EMBED` embeds the frame that `FENC` has written, and leaves what `HIDE` leaves. -/
theorem embed_commandResult_fenc {s : State} (hcfg : s.cfg.WellFormed) (hbuf : buffersSized s)
    (hlen : s.msgLen.toNat ≤ nBytes s - 1) (hcap : s.strict = true → requiredPixels s.msgLen.toNat ≤ capacity s) :
    exec .embed (commandResult .fenc s) = .next (commandResult .hide s) := by
  have ⟨hmsg, _⟩ := hbuf
  have hcount := commandResult_fenc_bitLen hmsg hlen
  have hembed := embed_ok (s := commandResult .fenc s) (by rw [hcount]; exact requiredPixels_le hcfg hlen)
    (by rw [hcount]; exact hcap)
  rw [hcount, take_commandResult_fenc hcfg hbuf hlen] at hembed
  rw [hembed, ← length_frame_messageBytes hmsg hlen]
  rfl

/-- Settles O41: `FENC` makes the checks of `HIDE` but the one of the capacity, which `EMBED` makes on the frame. -/
theorem hideIsFencThenEmbed : Obligations.HideIsFencThenEmbed := by
  intro s t hs hhide
  obtain ⟨hcfg, hbuf, -⟩ := hs
  have ⟨hmsg, _⟩ := hbuf
  obtain ⟨hreport, -⟩ := exec_report hmsg hhide
  refine ⟨fun hnone => ?_, fun hexceeded => ?_⟩
  · rw [hreport] at hnone
    obtain ⟨hlen, hlegal⟩ := passes_messageChecks (by rw [hnone]; nofun) (by rw [hnone]; nofun)
    have hcap := passes_capacityCheck hnone
    cases (exec_completes hmsg hlen hlegal hcap).symm.trans hhide
    exact ⟨_, fenc_ok hmsg hlen (hlegal (.inr rfl)), embed_commandResult_fenc hcfg hbuf hlen hcap⟩
  · rw [hreport] at hexceeded
    obtain ⟨hlen, hlegal⟩ := passes_messageChecks (by rw [hexceeded]; nofun) (by rw [hexceeded]; nofun)
    obtain ⟨hstrict, hover⟩ := of_reportedError_eq_capacityExceeded hexceeded
    cases (exec_capacityExceeded hmsg hlen hlegal hstrict hover).symm.trans hhide
    exact ⟨rfl, rfl, _, fenc_ok hmsg hlen (hlegal (.inr rfl)), rfl, writeBits_framesMessage hcfg hbuf hlen⟩

/-! ### `REVEAL` (R75) -/

/-- `FDEC` decodes the bits that `EXTRACT` has written, and leaves what `REVEAL` leaves. -/
theorem fdec_commandResult_extract {s : State} (h : capacity s ≤ 8 * nBytes s) :
    exec .fdec (commandResult .extract s) = .next (commandResult .reveal s) := by
  have hcount : (commandResult .extract s).bitLen.toNat = capacity s := by
    have hbits : (commandResult .extract s).bitLen = BitVec.ofNat 32 (extractedBits s).length := rfl
    rw [hbits, length_extractedBits, capacityWord_toNat]
  rw [fdec_ok (hcount.trans_le h), hcount]
  rfl

/-- Settles O42: both commands make the one check that the grid's bits fit in `BIT[]`. -/
theorem revealIsExtractThenFdec : Obligations.RevealIsExtractThenFdec := by
  intro s u hextract
  by_cases hroom : capacity s ≤ 8 * nBytes s
  · cases (extract_ok hroom).symm.trans hextract
    exact ⟨fun _ => (reveal_ok hroom).trans (fdec_commandResult_extract hroom).symm, fun herr => absurd rfl herr⟩
  · have hover := Nat.lt_of_not_le hroom
    cases (extract_length hover).symm.trans hextract
    exact ⟨nofun, fun _ => reveal_length hover⟩

end Sys2Proof.Machine
end

section
/-! PROOFS. Reset and the host's own control flow (70_reset_and_hazards.md R99 to R105; 30_encoding.md R54): what the host
keeps at a reset, that the states right after one are legal, and the host operations that only steer the host. -/

namespace Sys2Proof.Machine

/-! ### Reset -/

/-- Settles O3: reset writes registers and buffers, and draws the buffers in their sizes. -/
theorem resetKeepsTheHost : Obligations.ResetKeepsTheHost := fun _ h =>
  ⟨_, step_of_reset h, rfl, rfl, rfl, rfl, rfl, length_drawMsg _ _, length_drawBit _ _⟩

theorem statusConsistent_of_holdsResetValues {c : Config} {g : Grid} {t : State} (h : HoldsResetValues c g t) :
    statusConsistent t := by
  simp [statusConsistent, h.status, h.errInfo, Status.reset]

theorem inv_fresh {c : Config} {g : Grid} (hc : c.WellFormed) (hg : g.WellFormed c.hasAlpha) : (State.fresh c g).Inv :=
  have hcopies : ∀ g' ∈ (State.fresh c g).copies, g'.WellFormed c.hasAlpha := nofun
  ⟨hc, ⟨length_drawMsg c 0, length_drawBit c 0⟩, ⟨hg, hcopies⟩,
    statusConsistent_of_holdsResetValues (fresh_holdsResetValues c g), .inl rfl⟩

theorem empty_wellFormed (al : Bool) : Grid.empty.WellFormed al :=
  buildGrid_wellFormed al 0 0 []

/-- Settles O4: `State.reset` is the fresh state of legal parameters and the empty grid. -/
theorem resetStateIsLegal : Obligations.ResetStateIsLegal :=
  have hsample : Config.sample.WellFormed := by decide
  ⟨fun _ _ => inv_fresh, inv_fresh hsample (empty_wellFormed _)⟩

/-! ### The host's control flow -/

/-- `BRCLR` goes on at its label when the bit is not 1. -/
theorem branchOn_false (a : Word) (b : Fin 32) (l : Nat) (s : State) :
    branchOn a b l false s = { s with
      hpc := if (memRead s a).getLsbD b.val then s.hpc + 1 else l
      notes := s.notes ++ [memRead s a] } := by
  unfold branchOn
  cases (memRead s a).getLsbD b.val <;> rfl

/-- Settles O16: each is the step at its operation, `BRCLR` with its branches exchanged. -/
theorem hostControlFlow : Obligations.HostControlFlow := fun s a b l =>
  ⟨step_of_op, fun hop => (step_of_op hop).trans (congrArg _ (branchOn_false a b l s)), step_of_op⟩

/-- Settles O17: `HALT` is an operation without an effect. -/
theorem idleAfterTheProgram : Obligations.IdleAfterTheProgram :=
  fun _ h => h.elim step_of_none step_of_op

end Sys2Proof.Machine
end
